-- ==== Sys2Proof/Word.lean ====
section
/-! DEFINITION. The word types of the block (00_scope.md R8, R12, R13). -/

namespace Sys2Proof

/-- A datum wide enough for every admitted slot width (R8: 8, 16 or 32 bits). A block of slot
width `W` uses bits `[W-1:0]`; the bits above are zero (log 3). -/
abbrev Data := BitVec 32

/-- A byte (R13). -/
abbrev Byte := BitVec 8

end Sys2Proof
end

