-- ==== Sys2Proof/Config.lean ====
section
/-! DEFINITION. The implementation parameters of 00_scope.md R7 to R10, and the one free value. -/

namespace Sys2Proof

/-- The slot width `W ∈ {8, 16, 32}` (R8). -/
inductive SlotWidth where
  | w8
  | w16
  | w32
deriving DecidableEq, Repr

/-- `W` as a number of bits (R8). -/
def SlotWidth.bits : SlotWidth → Nat
  | .w8 => 8
  | .w16 => 16
  | .w32 => 32

/-- The overflow policy `OVF_POLICY` (R9): what `ADD` does on a full buffer. -/
inductive OvfPolicy where
  /-- The source's policy (b): overwrite the oldest unread element. -/
  | overwrite
  /-- The source's policy (a): reject with a capacity-exceeded signal. -/
  | reject
deriving DecidableEq, Repr

/-- The build parameters, fixed when the block is built (R7, R8, R9). `N = 0` cannot be built:
the depth comes with a proof that it is positive (R7, U3). -/
structure Config where
  /-- `N`, the number of slots. -/
  depth : Nat
  /-- `N >= 1`. -/
  depth_pos : 0 < depth
  /-- `W`, the slot width. -/
  width : SlotWidth
  /-- `OVF_POLICY`. -/
  policy : OvfPolicy
deriving DecidableEq, Repr

/-- The reference instance `N = 8`, `W = 8`, `OVF_POLICY = OVERWRITE` (R7, R8, R9; log 2). -/
def Config.reference : Config where
  depth := 8
  depth_pos := by decide
  width := .w8
  policy := .overwrite

/-- `AW = max(1, ceil(log2 N))`, the width in bits of `head` and `tail` (R10). -/
def Config.addrWidth (c : Config) : Nat :=
  if c.depth ≤ 2 then 1 else Nat.log2 (c.depth - 1) + 1

/-- `CW = ceil(log2 (N + 1))`, the width in bits of `count` (R10). -/
def Config.countWidth (c : Config) : Nat := Nat.log2 c.depth + 1

/-- FREE VALUE (log 4): the bits of a slot that nothing has written since power-on (R33, R35, U2:
"any value"). It has no body, so nothing can be proved of it. -/
opaque Config.unwrittenSlot : Nat → Data

end Sys2Proof
end

