-- ==== Sys2Proof/Syntax.lean ====
section
/-! DEFINITION. The instructions: one constructor per row of opcode_table.json (30_encoding.md R62). -/

namespace Sys2Proof

/-- The ten rows of the opcode table. Commands without an operand carry none: their data bits are
don't-care (R63, R70). -/
inductive Instr where
  /-- `INIT`, opcode 0 (R81). -/
  | init
  /-- `ADD value`, opcode 1 (R82). -/
  | add (value : Data)
  /-- `GET`, opcode 2 (R85). -/
  | get
  /-- `EMPTY`, opcode 3 (R86). -/
  | empty
  /-- `FULL`, opcode 4 (R87). -/
  | full
  /-- `CLEAR`, opcode 5 (R88). -/
  | clear
  /-- Reserved opcode 6 (R64, R89). -/
  | rsvd6
  /-- Reserved opcode 7 (R64, R89). -/
  | rsvd7
  /-- `SWAP16 value` on port `sw16_in` (R100). -/
  | swap16 (value : BitVec 16)
  /-- `SWAP32 value` on port `sw32_in` (R101). -/
  | swap32 (value : BitVec 32)
deriving DecidableEq, Repr

/-- Whether an instruction belongs to sync_fifo, that is, arrives on the command port; the other two
belong to endian_swap_unit (R60, R62). -/
def Instr.isCommand : Instr → Bool
  | .init => true
  | .add _ => true
  | .get => true
  | .empty => true
  | .full => true
  | .clear => true
  | .rsvd6 => true
  | .rsvd7 => true
  | .swap16 _ => false
  | .swap32 _ => false

end Sys2Proof
end

