-- ==== Sys2Proof/WellFormed.lean ====
section
/-! DEFINITION. Well-formedness: which operands can be presented to a block of slot width `W` (30_encoding.md R63, R68). -/

namespace Sys2Proof

/-- An instruction that a block of slot width `W` can be given: "`ADD n` requires `0 <= n < 2^W`"
(R68). The swap operands fill their ports (R63), so their types already hold the check. -/
def Instr.wellFormed (W : SlotWidth) : Instr → Bool
  | .add v => decide (v.toNat < 2 ^ W.bits)
  | .init => true
  | .get => true
  | .empty => true
  | .full => true
  | .clear => true
  | .rsvd6 => true
  | .rsvd7 => true
  | .swap16 _ => true
  | .swap32 _ => true

end Sys2Proof
end

