-- ==== Sys2Proof/Decode.lean ====
section
/-! DEFINITION. The decoder and the encoder (30_encoding.md R61 to R64, R70). -/

namespace Sys2Proof

/-- Bits `[W-1:0]` of a datum, the bits above them zero: what the `W` wires of `cmd_data`, `rsp_data`
or a slot carry (R60, R63). -/
def dataLow (W : SlotWidth) (v : Data) : Data := (v.setWidth W.bits).setWidth 32

/-- What the host puts on a port: the command word `fcmd = cmd_op ++ cmd_data` in the low `3 + W` bits
(formats FD and F0), or the operand of a swap port (formats S16 and S32) (R61). -/
inductive PortWord where
  | command (w : BitVec 35)
  | swap16 (w : BitVec 16)
  | swap32 (w : BitVec 32)
deriving DecidableEq, Repr

/-- Why the decoder rejects a word. -/
inductive DecodeError where
  /-- A command word with a bit set above its `3 + W` bits: the port has no such wire (R61; log 13). -/
  | wordTooWide
deriving DecidableEq, Repr

/-- The command word of an opcode and a datum: the opcode in bits `[W+2:W]`, the datum in `[W-1:0]`
(R61). -/
def commandWord (W : SlotWidth) (op : BitVec 3) (data : Data) : BitVec 35 :=
  (op.setWidth 35 <<< W.bits) ||| (dataLow W data).setWidth 35

/-- Field `op` of a command word, bits `[W+2:W]` (R61). -/
def opField (W : SlotWidth) (w : BitVec 35) : BitVec 3 := (w >>> W.bits).setWidth 3

/-- Field `data` of a command word, bits `[W-1:0]` (R61). -/
def dataField (W : SlotWidth) (w : BitVec 35) : Data := (w.setWidth W.bits).setWidth 32

/-- The decoder on the two ports `cmd_op`, `cmd_data` (R62, R70): total, every opcode a constructor; the
two that R70 answers with `Illegal` are `rsvd6` and `rsvd7` (R64). Data bits are ignored but by `ADD`
(R63). -/
def decodeCommand (op : BitVec 3) (data : Data) : Instr :=
  match op.toNat with
  | 0 => .init
  | 1 => .add data
  | 2 => .get
  | 3 => .empty
  | 4 => .full
  | 5 => .clear
  | 6 => .rsvd6
  | _ => .rsvd7

/-- The decoder on a port's word, for slot width `W` (R61, R62, R70). -/
def decode (W : SlotWidth) : PortWord → Except DecodeError Instr
  | .command w =>
    if w.toNat < 2 ^ (3 + W.bits) then .ok (decodeCommand (opField W w) (dataField W w))
    else .error .wordTooWide
  | .swap16 w => .ok (.swap16 w)
  | .swap32 w => .ok (.swap32 w)

/-- The canonical word of an instruction: data bits 0 where there is no operand (R61, R68, R70). -/
def encode (W : SlotWidth) : Instr → PortWord
  | .init => .command (commandWord W 0 0)
  | .add v => .command (commandWord W 1 v)
  | .get => .command (commandWord W 2 0)
  | .empty => .command (commandWord W 3 0)
  | .full => .command (commandWord W 4 0)
  | .clear => .command (commandWord W 5 0)
  | .rsvd6 => .command (commandWord W 6 0)
  | .rsvd7 => .command (commandWord W 7 0)
  | .swap16 v => .swap16 v
  | .swap32 v => .swap32 v

/-- The port word of an instruction whose bits are numbered as opcode_table.json numbers them. The
table gives a command row the 3 bits of `cmd_op` (mask 7; one whole byte) and its data no bits, so the
data is zero; a swap row is its whole operand port, 16 or 32 bits, mask 0 (log 10). -/
def tablePortWord (W : SlotWidth) (nbits w : Nat) : Option PortWord :=
  match nbits with
  | 8 => some (.command (commandWord W (BitVec.ofNat 3 w) 0))
  | 16 => some (.swap16 (BitVec.ofNat 16 w))
  | 32 => some (.swap32 (BitVec.ofNat 32 w))
  | _ => none

/-- The instruction the decoder reads from a table word, at the reference width `W = 8` (log 10). -/
def decodeTableWord (nbits w : Nat) : Option Instr :=
  match tablePortWord .w8 nbits w with
  | none => none
  | some p =>
    match decode .w8 p with
    | .ok i => some i
    | .error _ => none

end Sys2Proof
end

