-- ==== Sys2Proof/Machine/State.lean ====
section
/-! DEFINITION. The state of the block, its ports, and the reasons a step can stop (10_state.md, 30_encoding.md R60). -/

namespace Sys2Proof.Machine

/-- The storage: the written slots with their contents, in strictly rising order of slot index. An
unlisted slot has never been written and has no listed value (R32, R35; log 4). -/
abbrev Memory := List (Nat × Data)

/-- The canonical form of the storage: slot indexes strictly rising. -/
abbrev Memory.wf (m : Memory) : Prop := m.Pairwise (fun a b => a.1 < b.1)

/-- The input ports of R60, but for `clk`, as the host holds them during one clock cycle. -/
structure Inputs where
  rst : Bool
  cmdValid : Bool
  cmdOp : BitVec 3
  cmdData : Data
  sw16In : BitVec 16
  sw32In : BitVec 32
deriving DecidableEq, Repr

/-- The output ports of R60, as they stand during one clock cycle. -/
structure Outputs where
  rspStatus : BitVec 2
  rspData : Data
  empty : Bool
  full : Bool
  sw16Out : BitVec 16
  sw32Out : BitVec 32
deriving DecidableEq, Repr

/-- The whole state. The spec's own state is `mem`, `head`, `tail`, `count` (R20); the other fields are
the model's: the build parameters (log 1), the ports (log 6, log 9) and the host's coming inputs
(log 7). -/
structure State where
  /-- The build parameters `N`, `W`, `OVF_POLICY` (R7 to R9); nothing writes them. -/
  cfg : Config
  /-- The slot array (R32). -/
  mem : Memory
  /-- The write cursor (R21). -/
  head : Nat
  /-- The read cursor (R22). -/
  tail : Nat
  /-- The number of elements held (R23). -/
  count : Nat
  /-- The input ports as the host last held them (R60). -/
  pins : Inputs
  /-- What the output ports showed in the cycle just stepped (R60, R66). -/
  out : Outputs
  /-- What the host will hold on the input ports in the coming cycles, one record a cycle (R30, R136). -/
  stimulus : List Inputs
deriving DecidableEq, Repr

/-- Why the machine stops. -/
inductive Fault where
  /-- Raised by the slot access of `ADD` and `GET` at an index outside `[0, N)`: R40 says that no such
  address exists. SAFE: it needs a cursor outside its range, which no reachable state has (R25). -/
  | noSuchSlot
deriving DecidableEq, Repr

/-- Why an instruction has no meaning. -/
inductive Refusal where
  /-- Raised by no meaning: the name the host reserves for an arm that has none. SAFE. -/
  | notModelled (mnemonic : String)
deriving DecidableEq, Repr

/-- The outcome of a step of this machine. -/
abbrev Result := Host.Outcome State Fault Refusal

/-- Every input port low: an idle cycle (R65). -/
def Inputs.quiet : Inputs where
  rst := false
  cmdValid := false
  cmdOp := 0
  cmdData := 0
  sw16In := 0
  sw32In := 0

/-- The output ports after reset: response `(0, 0)` (R130), `empty = 1`, `full = 0` (R33), and the
swap outputs of an operand 0 (log 9). -/
def Outputs.afterReset : Outputs where
  rspStatus := 0
  rspData := 0
  empty := true
  full := false
  sw16Out := 0
  sw32Out := 0

/-- A block of build parameters `c` right after reset (R33): cursors and count 0, no slot known to be
written, and nothing presented by the host (log 7, log 9). -/
def State.resetOf (c : Config) : State where
  cfg := c
  mem := []
  head := 0
  tail := 0
  count := 0
  pins := Inputs.quiet
  out := Outputs.afterReset
  stimulus := []

/-- The reference instance right after reset (R33; log 2). -/
def State.reset : State := State.resetOf Config.reference

end Sys2Proof.Machine
end

