-- ==== Sys2Proof/Machine/Flags.lean ====
section
/-! DEFINITION. The two flags and the status codes (10_state.md R27, 30_encoding.md R66). -/

namespace Sys2Proof.Machine

/-- Flag `empty := (count == 0)` (R27). -/
def emptyFlag (s : State) : Bool := s.count == 0

/-- Flag `full := (count == N)` (R27). -/
def fullFlag (s : State) : Bool := s.count == s.cfg.depth

/-- `zext_W` of a 1-bit flag: the datum 0 or 1 (R66, R93 (f)). -/
def zextFlag (b : Bool) : Data := if b then 1 else 0

/-- The response status (R66). -/
inductive Status where
  | ok
  | underflow
  | overflow
  | illegal
deriving DecidableEq, Repr

/-- The 2-bit code on `rsp_status` (R66). -/
def statusCode : Status → BitVec 2
  | .ok => 0
  | .underflow => 1
  | .overflow => 2
  | .illegal => 3

/-- The three exceptions (R110). -/
inductive FifoException where
  | underflow
  | overflow
  | illegalCommand
deriving DecidableEq, Repr

/-- The status an exception answers with (R110). -/
def exceptionStatus : FifoException → Status
  | .underflow => .underflow
  | .overflow => .overflow
  | .illegalCommand => .illegal

end Sys2Proof.Machine
end

