-- ==== Sys2Proof/Machine/Operands.lean ====
section
/-! DEFINITION. The operand forms: the data operand of `ADD`, and the two implicit addresses (30_encoding.md R63, 40_fifo_ops.md R94). -/

namespace Sys2Proof.Machine

/-- The operand of `ADD`: `cmd_data[W-1:0]` as it stands (R63; log 3). -/
def addOperand (s : State) (value : Data) : Data := dataLow s.cfg.width value

/-- The effective address of `ADD`, the old `head` (R94). -/
def storeAddress (s : State) : Nat := s.head

/-- The effective address of `GET`, the old `tail` (R94). -/
def loadAddress (s : State) : Nat := s.tail

/-- Cursor post-increment: `(c + 1) mod N`, not modulo a power of two (R43, R93 (a)). -/
def advance (N c : Nat) : Nat := (c + 1) % N

end Sys2Proof.Machine
end

