-- ==== Sys2Proof/Machine/Ops.lean ====
section
/-! DEFINITION. The named operations over storage, registers and ports; taking an exception. -/

namespace Sys2Proof.Machine

/-! ## Field updates -/

/-- Replace the storage. -/
def setMem (s : State) (m : Memory) : State := { s with mem := m }

/-- Write the three registers together (R14). -/
def setCursors (s : State) (head tail count : Nat) : State :=
  { s with head := head, tail := tail, count := count }

/-- Show a response on `rsp_status` and `rsp_data` in this cycle (R66). -/
def respond (s : State) (st : Status) (data : Data) : State :=
  { s with out := { s.out with rspStatus := statusCode st, rspData := data } }

/-- Show the flags of the present state on the ports `empty` and `full` (R27, R130). -/
def showFlags (s : State) : State :=
  { s with out := { s.out with empty := emptyFlag s, full := fullFlag s } }

/-- The host's inputs for a cycle, and those it has still to present. -/
def setInputs (s : State) (p : Inputs) (rest : List Inputs) : State :=
  { s with pins := p, stimulus := rest }

/-- The host lines up `p` for the very next cycle, ahead of what it has still to present. -/
def presentInputs (s : State) (p : Inputs) : State := setInputs s s.pins (p :: s.stimulus)

/-! ## Storage: the primitives of R14 -/

/-- The listed content of slot `i`; `none` if nothing has written it. -/
def slotLookup : Memory → Nat → Option Data
  | [], _ => none
  | (j, w) :: m, i => if j = i then some w else slotLookup m i

/-- The storage with slot `i` holding `v`, in canonical form. -/
def slotInsert : Memory → Nat → Data → Memory
  | [], i, v => [(i, v)]
  | (j, w) :: m, i, v =>
    if i < j then (i, v) :: (j, w) :: m
    else if i = j then (i, v) :: m
    else (j, w) :: slotInsert m i v

/-- The `W` bits that slot `i` holds: what was written there, or the free value of a slot that nothing
has written (R14, R35; log 4). -/
def slotValue (s : State) (i : Nat) : Data :=
  dataLow s.cfg.width ((slotLookup s.mem i).getD (Config.unwrittenSlot i))

/-- `MemRead(i, 1)` (R14): slot `i`, `0 <= i < N`. An index outside names no slot (R40; log 5). -/
def memRead (s : State) (i : Nat) : Except Fault Data :=
  if i < s.cfg.depth then .ok (slotValue s i) else .error .noSuchSlot

/-- `MemWrite(i, 1, v)` (R14): slot `i` takes the `W`-bit value `v`, no other slot changes. An index
outside `[0, N)` names no slot (R40; log 5). -/
def memWrite (s : State) (i : Nat) (v : Data) : Except Fault State :=
  if i < s.cfg.depth then .ok (setMem s (slotInsert s.mem i v)) else .error .noSuchSlot

/-! ## Reset, success, exceptions -/

/-- The one state change of reset, `INIT` and `CLEAR`: cursors and count to 0, no slot written (R133). -/
def resetState (s : State) : State := setCursors s 0 0 0

/-- `return OK(v)` (R14): the response of a command that succeeds. -/
def returnOk (s : State) (data : Data) : Result := .next (respond s .ok data)

/-- TAKING AN EXCEPTION, `raise` (R14, R116): `mem`, `head`, `tail` and `count` keep their values,
`rsp_status` takes the exception's code, `rsp_data` is 0; nothing is saved and control goes nowhere.
There is no return from one (R117): the next command runs from this state as any other. -/
def raise (e : FifoException) (s : State) : Result := .next (respond s (exceptionStatus e) 0)

/-! ## Byte reordering -/

/-- Byte `k` of a value: bits `[8k+7:8k]` (R13). -/
def byteOf {n : Nat} (v : BitVec n) (k : Nat) : Byte := v.extractLsb' (8 * k) 8

/-- `swap16(value) := b0 ++ b1` (R100). -/
def swap16 (v : BitVec 16) : BitVec 16 := byteOf v 0 ++ byteOf v 1

/-- `swap32(value) := b0 ++ b1 ++ b2 ++ b3` (R101). -/
def swap32 (v : BitVec 32) : BitVec 32 := byteOf v 0 ++ byteOf v 1 ++ byteOf v 2 ++ byteOf v 3

/-- The host holds `v` on `sw16_in`; `sw16_out` shows its swap at once (R60, R100). -/
def driveSwap16 (s : State) (v : BitVec 16) : State :=
  { s with pins := { s.pins with sw16In := v }, out := { s.out with sw16Out := swap16 v } }

/-- The host holds `v` on `sw32_in`; `sw32_out` shows its swap at once (R60, R101). -/
def driveSwap32 (s : State) (v : BitVec 32) : State :=
  { s with pins := { s.pins with sw32In := v }, out := { s.out with sw32Out := swap32 v } }

/-- Run `f` from the next state of an outcome; a stop stays a stop. -/
def andThen (r : Result) (f : State → Result) : Result :=
  match r with
  | .next s => f s
  | .fault e => .fault e
  | .refused e => .refused e

/-- Run `f` on the members of a list one after another; the first stop stops the run. -/
def runAll {α : Type} (f : α → State → Result) : List α → State → Result
  | [], s => .next s
  | a :: as, s => andThen (f a s) (runAll f as)

end Sys2Proof.Machine
end

