-- ==== Sys2Proof/Machine/EndianSwap.lean ====
section
/-! DEFINITION. The meanings of the endian_swap_unit operations (41_endian_swap.md R100, R101). -/

namespace Sys2Proof.Machine

/-- `SWAP16 value` (R100): an evaluation of the combinational port; sync_fifo is not touched (R103). -/
def execSwap16 (value : BitVec 16) (s : State) : Result := .next (driveSwap16 s value)

/-- `SWAP32 value` (R101): an evaluation of the combinational port; sync_fifo is not touched (R103). -/
def execSwap32 (value : BitVec 32) (s : State) : Result := .next (driveSwap32 s value)

end Sys2Proof.Machine
end

