-- ==== Sys2Proof/Machine/Fifo.lean ====
section
/-! DEFINITION. The meanings of the sync_fifo commands (40_fifo_ops.md R81 to R89). -/

namespace Sys2Proof.Machine

/-- `INIT` (R81). -/
def execInit (s : State) : Result := returnOk (resetState s) 0

/-- Append `v` at the store address, then move the registers to the given values; the writes land
together and every read sees the old state (R14, R82). -/
def storeElement (s : State) (v : Data) (head tail count : Nat) : Result :=
  match memWrite s (storeAddress s) v with
  | .ok t => returnOk (setCursors t head tail count) 0
  | .error e => .fault e

/-- `ADD value` (R82): append when not full; when full, evict the oldest element (R83) or raise
`Overflow` (R84), by `OVF_POLICY`. -/
def execAdd (value : Data) (s : State) : Result :=
  if s.count < s.cfg.depth then
    storeElement s (addOperand s value) (advance s.cfg.depth s.head) s.tail (s.count + 1)
  else
    match s.cfg.policy with
    | .overwrite =>
      storeElement s (addOperand s value) (advance s.cfg.depth s.head)
        (advance s.cfg.depth s.tail) s.count
    | .reject => raise .overflow s

/-- `GET` (R85): remove and return the oldest element, or raise `Underflow`. -/
def execGet (s : State) : Result :=
  if s.count = 0 then raise .underflow s
  else
    match memRead s (loadAddress s) with
    | .ok v => returnOk (setCursors s s.head (advance s.cfg.depth s.tail) (s.count - 1)) v
    | .error e => .fault e

/-- `EMPTY` (R86). -/
def execEmpty (s : State) : Result := returnOk s (zextFlag (emptyFlag s))

/-- `FULL` (R87). -/
def execFull (s : State) : Result := returnOk s (zextFlag (fullFlag s))

/-- `CLEAR` (R88). -/
def execClear (s : State) : Result := returnOk (resetState s) 0

/-- Reserved opcode 6 (R89). -/
def execRsvd6 (s : State) : Result := raise .illegalCommand s

/-- Reserved opcode 7 (R89). -/
def execRsvd7 (s : State) : Result := raise .illegalCommand s

end Sys2Proof.Machine
end

