-- ==== Sys2Proof/Machine/Dispatch.lean ====
section
/-! DEFINITION. The dispatch: one arm per instruction of opcode_table.json. -/

namespace Sys2Proof.Machine

open Sys2Proof

def exec (i : Instr) (s : State) : Host.Outcome State Fault Refusal :=
  match i with
  | .init => Sys2Proof.Machine.execInit s
  | .add value => Sys2Proof.Machine.execAdd value s
  | .get => Sys2Proof.Machine.execGet s
  | .empty => Sys2Proof.Machine.execEmpty s
  | .full => Sys2Proof.Machine.execFull s
  | .clear => Sys2Proof.Machine.execClear s
  | .rsvd6 => Sys2Proof.Machine.execRsvd6 s
  | .rsvd7 => Sys2Proof.Machine.execRsvd7 s
  | .swap16 value => Sys2Proof.Machine.execSwap16 value s
  | .swap32 value => Sys2Proof.Machine.execSwap32 value s

end Sys2Proof.Machine
end

