-- ==== Sys2Proof/Machine/Cycle.lean ====
section
/-! DEFINITION. One clock cycle (70_reset_and_hazards.md R130) and how the host presents a word on a port. -/

namespace Sys2Proof.Machine

/-- No command and no reset; the other inputs held (R65). -/
def idleInputs (held : Inputs) : Inputs := { held with rst := false, cmdValid := false }

/-- The inputs of the present cycle: the next record of the stimulus; when the host has none left it
presents no command and no reset, and holds its other inputs (R137; log 7). -/
def cycleInputs (s : State) : Inputs :=
  match s.stimulus with
  | [] => idleInputs s.pins
  | p :: _ => p

/-- The start of a cycle: the inputs stand on the pins, and the flag ports show the flags of the state
before the cycle's command (R130, last line). -/
def beginCycle (s : State) : State :=
  setInputs (showFlags s) (cycleInputs s) s.stimulus.tail

/-- A cycle with `rst = 1` (R130): the reset state change, no command executes, response `(0, 0)`. -/
def resetCycle (s : State) : Result := .next (respond (resetState s) .ok 0)

/-- An idle cycle, `NOP` (R65, R90): no state changes, response `(0, 0)`. -/
def idleCycle (s : State) : Result := .next (respond s .ok 0)

/-- The instruction on the command port (R62, R63, R70). -/
def presentedCommand (s : State) : Instr :=
  decodeCommand s.pins.cmdOp (dataLow s.cfg.width s.pins.cmdData)

/-- The sync_fifo half of a cycle (R130): reset beats idle, idle beats a command. -/
def fifoCycle (s : State) : Result :=
  if s.pins.rst then resetCycle s
  else if s.pins.cmdValid then exec (presentedCommand s) s
  else idleCycle s

/-- The endian_swap_unit half of a cycle: both combinational ports, in every cycle (R60, R103). -/
def swapCycle (s : State) : Result :=
  andThen (exec (.swap16 s.pins.sw16In) s) fun t => exec (.swap32 t.pins.sw32In) t

/-- One clock cycle of the whole block. The two halves share nothing (R60), so their order is of no
account. -/
def cycle (s : State) : Result := andThen (swapCycle (beginCycle s)) fifoCycle

/-- The input ports when the host presents a word on its port and holds the rest: a command word comes
with `cmd_valid = 1`; a swap operand changes its own port only (R60, R61). -/
def presentWord (W : SlotWidth) (held : Inputs) : PortWord → Inputs
  | .command w =>
    { held with rst := false, cmdValid := true, cmdOp := opField W w, cmdData := dataField W w }
  | .swap16 w => { held with sw16In := w }
  | .swap32 w => { held with sw32In := w }

/-- The host presents a table word in the very next cycle, ahead of what it has lined up (log 7, log 10).
A swap operand stands there beside no command (R65; log 8). Numbers of bits that no row of the table has
leave the state as it is. -/
def presentTableWord (s : State) (nbits w : Nat) : State :=
  match tablePortWord s.cfg.width nbits w with
  | none => s
  | some p => presentInputs s (presentWord s.cfg.width (idleInputs s.pins) p)

end Sys2Proof.Machine
end

