-- ==== Sys2Proof/Machine/Step.lean ====
section
/-! DEFINITION. The step function: one clock cycle (70_reset_and_hazards.md R130). -/

namespace Sys2Proof.Machine

/-- One step is one clock cycle: `S_t` to `S_(t+1)` (R15, R130). -/
def step (s : State) : Host.Outcome State Fault Refusal := cycle s

/-- The state in which the next cycle presents the given table word on its port. There is no program
memory and no fetch (R30): the host's next input takes the place of a fetched instruction (log 7). -/
def State.withFetchWord (s : State) (nbits w : Nat) : State := presentTableWord s nbits w

end Sys2Proof.Machine
end

