-- ==== Sys2Proof/Machine/Listing.lean ====
section
/-! DEFINITION. The textual syntax and the pseudo-instructions (30_encoding.md R68, R69). -/

namespace Sys2Proof.Machine

/-- A line of a listing: a command or swap evaluation, or one of the two pseudo-instructions (R68, R69). -/
inductive Line where
  | instr (i : Instr)
  /-- An idle cycle (R69). -/
  | nop
  /-- One cycle with `rst = 1` (R69). -/
  | reset
deriving DecidableEq, Repr

/-- Whether a line takes a clock cycle: every line but the swap evaluations, which take none (R68). -/
def Line.takesCycle : Line → Bool
  | .instr i => i.isCommand
  | .nop => true
  | .reset => true

/-- What the host holds on the input ports from a line on: a swap line changes its operand port only
(R68, R69). -/
def lineInputs (W : SlotWidth) (held : Inputs) : Line → Inputs
  | .instr i => presentWord W held (encode W i)
  | .nop => idleInputs held
  | .reset => { held with rst := true, cmdValid := false }

/-- The stimulus of a listing: the inputs of its clock cycles, one for each line that takes a cycle. A swap
line takes none: its operand stands on its port until another replaces it (R68). -/
def assemble (W : SlotWidth) (held : Inputs) : List Line → List Inputs
  | [] => []
  | l :: ls =>
    if l.takesCycle then lineInputs W held l :: assemble W (lineInputs W held l) ls
    else assemble W (lineInputs W held l) ls

/-- One clock cycle in which the host holds `p` on the input ports. -/
def runCycle (p : Inputs) (s : State) : Result := cycle (presentInputs s p)

/-- What a line does. A swap line is an evaluation of its combinational port between two clock edges: no
cycle passes (R68). Every other line is one clock cycle (R68, R69). -/
def runLine (l : Line) (s : State) : Result :=
  match l with
  | .instr i =>
    if i.isCommand then runCycle (lineInputs s.cfg.width s.pins (.instr i)) s
    else exec i s
  | .nop => runCycle (lineInputs s.cfg.width s.pins .nop) s
  | .reset => runCycle (lineInputs s.cfg.width s.pins .reset) s

/-- What a listing does, line after line. -/
def runListing (ls : List Line) (s : State) : Result := runAll runLine ls s

/-- The value of a digit in a base up to 16. -/
def digitValue (base : Nat) (c : Char) : Option Nat :=
  let n := c.toNat
  let d := if 48 ≤ n ∧ n ≤ 57 then n - 48 else if 65 ≤ n ∧ n ≤ 70 then n - 55
    else if 97 ≤ n ∧ n ≤ 102 then n - 87 else 16
  if d < base then some d else none

/-- A run of digits after the value `acc`. -/
def parseDigits (base acc : Nat) : List Char → Option Nat
  | [] => some acc
  | c :: cs =>
    match digitValue base c with
    | none => none
    | some d => parseDigits base (acc * base + d) cs

/-- `number := decimal | "0x" hex` (R68). -/
def parseNumber : List Char → Option Nat
  | [] => none
  | '0' :: 'x' :: c :: cs => parseDigits 16 0 (c :: cs)
  | c :: cs => parseDigits 10 0 (c :: cs)

/-- The words of a line, split at spaces; `cur` is the word being read, its last letter first. -/
def splitWords (cur : List Char) : List Char → List (List Char)
  | [] => if cur.isEmpty then [] else [cur.reverse]
  | c :: cs =>
    if c = ' ' then (if cur.isEmpty then splitWords [] cs else cur.reverse :: splitWords [] cs)
    else splitWords (c :: cur) cs

/-- A line of one word (R68). -/
def parsePlain (w : List Char) : Option Line :=
  if w = ['I', 'N', 'I', 'T'] then some (.instr .init)
  else if w = ['G', 'E', 'T'] then some (.instr .get)
  else if w = ['E', 'M', 'P', 'T', 'Y'] then some (.instr .empty)
  else if w = ['F', 'U', 'L', 'L'] then some (.instr .full)
  else if w = ['C', 'L', 'E', 'A', 'R'] then some (.instr .clear)
  else if w = ['R', 'S', 'V', 'D', '6'] then some (.instr .rsvd6)
  else if w = ['R', 'S', 'V', 'D', '7'] then some (.instr .rsvd7)
  else if w = ['N', 'O', 'P'] then some .nop
  else if w = ['R', 'E', 'S', 'E', 'T'] then some .reset
  else none

/-- A line of a word and a number; a number out of its range is "not a program" (R68). -/
def parseOperand (W : SlotWidth) (w : List Char) (n : Nat) : Option Line :=
  if w = ['A', 'D', 'D'] then
    if n < 2 ^ W.bits then some (.instr (.add (BitVec.ofNat 32 n))) else none
  else if w = ['S', 'W', 'A', 'P', '1', '6'] then
    if n < 2 ^ 16 then some (.instr (.swap16 (BitVec.ofNat 16 n))) else none
  else if w = ['S', 'W', 'A', 'P', '3', '2'] then
    if n < 2 ^ 32 then some (.instr (.swap32 (BitVec.ofNat 32 n))) else none
  else none

/-- A line of the grammar of R68, for slot width `W`; `none` if it is no line of a program. -/
def parseLine (W : SlotWidth) (text : List Char) : Option Line :=
  match splitWords [] text with
  | [w] => parsePlain w
  | [w, n] =>
    match parseNumber n with
    | none => none
    | some v => parseOperand W w v
  | _ => none

end Sys2Proof.Machine
end

