-- ==== Sys2Proof/Safety.lean ====
section
/-! DEFINITION. What claims are stated in: the contents, the invariant, what an operation leaves alone, command streams. -/

namespace Sys2Proof.Machine

/-! ## Observations -/

/-- The response a command gave in its cycle: `(rsp_status, rsp_data)` (R66, R80). -/
def response (s : State) : BitVec 2 × Data := (s.out.rspStatus, s.out.rspData)

/-- The response `(status, data)`. -/
def answer (st : Status) (data : Data) : BitVec 2 × Data := (statusCode st, data)

/-- The slot of the `k`-th oldest element (R34). -/
def windowSlot (s : State) (k : Nat) : Nat := (s.tail + k) % s.cfg.depth

/-- The abstract contents, oldest element first (R34). -/
def contents (s : State) : List Data := (List.range s.count).map fun k => slotValue s (windowSlot s k)

/-- The three abstract states of R29. -/
inductive Level where
  | empty
  | part
  | full
deriving DecidableEq, Repr

/-- The abstract state (R29): Empty is `count == 0`, Full is `count == N`, Partial lies between. -/
def level (s : State) : Level :=
  if s.count = 0 then .empty else if s.count = s.cfg.depth then .full else .part

/-! ## Invariants -/

/-- The ranges of R25. -/
structure InRange (s : State) : Prop where
  count_le : s.count ≤ s.cfg.depth
  head_lt : s.head < s.cfg.depth
  tail_lt : s.tail < s.cfg.depth

/-- What holds in every reachable state: the ranges (R25), the cursor equation (R26), the canonical
form of the storage, slots that exist and hold `W` bits (R8, R40), and a window that has been written
(R34). -/
structure BufferInv (s : State) : Prop extends InRange s where
  head_eq : s.head = (s.tail + s.count) % s.cfg.depth
  mem_wf : s.mem.wf
  mem_slots : ∀ c ∈ s.mem, c.1 < s.cfg.depth ∧ c.2.toNat < 2 ^ s.cfg.width.bits
  window_written : ∀ k, k < s.count → (slotLookup s.mem (windowSlot s k)).isSome = true

/-- The states that runs from a reset of some block reach, under any inputs of the host (R25, R131). -/
inductive Reachable : State → Prop where
  | reset (c : Config) (stimulus : List Inputs) :
      Reachable { State.resetOf c with stimulus := stimulus }
  | step (s t : State) : Reachable s → step s = .next t → Reachable t

/-! ## What an operation leaves alone -/

/-- The spec's whole state is as it was (R20). -/
structure FifoKept (s t : State) : Prop where
  mem : t.mem = s.mem
  head : t.head = s.head
  tail : t.tail = s.tail
  count : t.count = s.count

/-- Everything outside the spec's state is as it was, but for the response: the build parameters, the
host's inputs, the flag ports and the swap ports. -/
structure SurroundKept (s t : State) : Prop where
  cfg : t.cfg = s.cfg
  pins : t.pins = s.pins
  stimulus : t.stimulus = s.stimulus
  empty : t.out.empty = s.out.empty
  full : t.out.full = s.out.full
  sw16 : t.out.sw16Out = s.out.sw16Out
  sw32 : t.out.sw32Out = s.out.sw32Out

/-- Two states with the same parameters, registers and window contents; their slots outside the window,
their ports and their coming inputs may differ (R35). -/
structure SameWindow (s t : State) : Prop where
  cfg : t.cfg = s.cfg
  head : t.head = s.head
  tail : t.tail = s.tail
  count : t.count = s.count
  window : contents t = contents s

/-! ## Command streams (R50, R137) -/

/-- Execute instructions one after another, with the response after each; `none` if one stops. -/
def execList : List Instr → State → Option (State × List (BitVec 2 × Data))
  | [], s => some (s, [])
  | i :: is, s =>
    match exec i s with
    | .next t =>
      match execList is t with
      | some (u, rs) => some (u, response t :: rs)
      | none => none
    | .fault _ => none
    | .refused _ => none

/-- The bounded queue that the block implements (R34): the contents after a command and its response. -/
def queueExec (c : Config) : Instr → List Data → List Data × (BitVec 2 × Data)
  | .init, _ => ([], answer .ok 0)
  | .add v, q =>
    if q.length < c.depth then (q ++ [dataLow c.width v], answer .ok 0)
    else
      match c.policy with
      | .overwrite => (q.tail ++ [dataLow c.width v], answer .ok 0)
      | .reject => (q, answer .overflow 0)
  | .get, [] => ([], answer .underflow 0)
  | .get, x :: q => (q, answer .ok x)
  | .empty, q => (q, answer .ok (zextFlag q.isEmpty))
  | .full, q => (q, answer .ok (zextFlag (q.length == c.depth)))
  | .clear, _ => ([], answer .ok 0)
  | .rsvd6, q => (q, answer .illegal 0)
  | .rsvd7, q => (q, answer .illegal 0)
  | .swap16 _, q => (q, answer .ok 0)
  | .swap32 _, q => (q, answer .ok 0)

/-- A list of commands on the queue: the contents at the end and the responses. -/
def queueList (c : Config) : List Instr → List Data → List Data × List (BitVec 2 × Data)
  | [], q => (q, [])
  | i :: is, q =>
    ((queueList c is (queueExec c i q).1).1,
      (queueExec c i q).2 :: (queueList c is (queueExec c i q).1).2)

/-- The value a command put into the buffer: the `W` wires of the operand of an `ADD` answered `OK`. -/
def acceptedValue (W : SlotWidth) (i : Instr) (r : BitVec 2 × Data) : Option Data :=
  match i with
  | .add v => if r.1 = statusCode .ok then some (dataLow W v) else none
  | .init => none
  | .get => none
  | .empty => none
  | .full => none
  | .clear => none
  | .rsvd6 => none
  | .rsvd7 => none
  | .swap16 _ => none
  | .swap32 _ => none

/-- The value a command took out of the buffer: the data of a `GET` answered `OK`. -/
def returnedValue (i : Instr) (r : BitVec 2 × Data) : Option Data :=
  if i = .get ∧ r.1 = statusCode .ok then some r.2 else none

/-- The values that the commands of a stream with the given responses put in, in order. -/
def acceptedValues (W : SlotWidth) (is : List Instr) (rs : List (BitVec 2 × Data)) : List Data :=
  (is.zip rs).filterMap fun x => acceptedValue W x.1 x.2

/-- The values that the commands of a stream with the given responses took out, in order. -/
def returnedValues (is : List Instr) (rs : List (BitVec 2 × Data)) : List Data :=
  (is.zip rs).filterMap fun x => returnedValue x.1 x.2

/-- Whether an instruction would evict the oldest element: an `ADD` on a full buffer under `OVERWRITE`
(R83). -/
def evicts (i : Instr) (s : State) : Prop :=
  (∃ v, i = .add v) ∧ s.count = s.cfg.depth ∧ s.cfg.policy = .overwrite

/-- No instruction of the stream evicts an element, when the stream is executed from `s`. -/
def NoEviction : List Instr → State → Prop
  | [], _ => True
  | i :: is, s => ¬ evicts i s ∧ ∀ t, exec i s = .next t → NoEviction is t

/-- The last `n` elements of a list. -/
def lastElements (n : Nat) (l : List Data) : List Data := l.drop (l.length - n)

end Sys2Proof.Machine
end

