-- ==== Sys2Proof/Certificates/Slice0/Obligations.lean ====
section
/-! DEFINITION. The statements for the provers. -/

open Sys2Proof Sys2Proof.Machine

/-! ## The instructions -/

/-- R81: `INIT` completes in every state; what it does, its encoding, its idempotence, and its
equality with `CLEAR` and with the state change of reset. -/
def Obligations.InitEmptiesTheBuffer : Prop :=
  (∀ d, decodeCommand 0 d = .init) ∧ encode .w8 .init = .command 0x000 ∧
  ∀ s, ∃ t, exec .init s = .next t ∧
    t.head = 0 ∧ t.tail = 0 ∧ t.count = 0 ∧ t.mem = s.mem ∧ contents t = [] ∧
    emptyFlag t = true ∧ fullFlag t = false ∧ response t = (0, 0) ∧ SurroundKept s t ∧
    exec .init t = .next t ∧ exec .clear s = .next t ∧ resetCycle s = .next t

/-- R88: `CLEAR` completes in every state; what it does, its encoding, its idempotence, and its
equality with `INIT`. -/
def Obligations.ClearDiscardsEveryElement : Prop :=
  (∀ d, decodeCommand 5 d = .clear) ∧ encode .w8 .clear = .command 0x500 ∧
  ∀ s, ∃ t, exec .clear s = .next t ∧
    t.head = 0 ∧ t.tail = 0 ∧ t.count = 0 ∧ t.mem = s.mem ∧ contents t = [] ∧
    emptyFlag t = true ∧ fullFlag t = false ∧ response t = (0, 0) ∧ SurroundKept s t ∧
    exec .clear t = .next t ∧ exec .init s = .next t

/-- R82, R112: `ADD` completes in every state whose registers are in range. It appends when not full;
when full it evicts the oldest element or raises `Overflow`, by `OVF_POLICY`. The store goes to
`storeAddress s` and every other slot reads as before. The slot takes the `W` wires of the operand, and
a `W`-bit operand is stored bit for bit. -/
def Obligations.AddAppendsEvictsOrRejects : Prop :=
  (∀ d, decodeCommand 1 d = .add d) ∧
  (∀ v : Data, v.toNat < 256 → encode .w8 (.add v) = .command (0x100 ||| v.setWidth 35)) ∧
  (∀ (W : SlotWidth) (v : Data), v.toNat < 2 ^ W.bits → dataLow W v = v) ∧
  ∀ (s : State) (v : Data), InRange s →
    ∃ t, exec (.add v) s = .next t ∧ SurroundKept s t ∧ t.out.rspData = 0 ∧
    if s.count < s.cfg.depth then
      t.out.rspStatus = 0 ∧ t.head = (s.head + 1) % s.cfg.depth ∧ t.tail = s.tail ∧
      t.count = s.count + 1 ∧ emptyFlag t = false ∧
      (fullFlag t = true ↔ s.count = s.cfg.depth - 1) ∧
      ∀ j, slotLookup t.mem j =
        if j = storeAddress s then some (dataLow s.cfg.width v) else slotLookup s.mem j
    else if s.cfg.policy = .overwrite then
      t.out.rspStatus = 0 ∧ t.head = (s.head + 1) % s.cfg.depth ∧
      t.tail = (s.tail + 1) % s.cfg.depth ∧ t.count = s.cfg.depth ∧
      emptyFlag t = false ∧ fullFlag t = true ∧
      ∀ j, slotLookup t.mem j =
        if j = storeAddress s then some (dataLow s.cfg.width v) else slotLookup s.mem j
    else
      t.out.rspStatus = 2 ∧ FifoKept s t ∧ emptyFlag t = false ∧ fullFlag t = true

/-- R111, and the pseudocode of R85: `GET` completes in every state whose registers are in range. It answers
the slot at `loadAddress s` and steps the read cursor, or raises `Underflow` on an empty buffer; it
writes no slot. -/
def Obligations.GetRemovesTheOldestOrUnderflows : Prop :=
  (∀ d, decodeCommand 2 d = .get) ∧ encode .w8 .get = .command 0x200 ∧
  ∀ s, InRange s → ∃ t, exec .get s = .next t ∧ SurroundKept s t ∧ t.mem = s.mem ∧ t.head = s.head ∧
    if s.count = 0 then
      FifoKept s t ∧ response t = (1, 0) ∧ emptyFlag t = true ∧ fullFlag t = false
    else
      t.tail = (s.tail + 1) % s.cfg.depth ∧ t.count = s.count - 1 ∧
      response t = (0, slotValue s (loadAddress s)) ∧ fullFlag t = false ∧
      (emptyFlag t = true ↔ s.count = 1)

/-- R86: `EMPTY` completes in every state, changes nothing, answers the flag; when it is the command of
a cycle its answer equals the `empty` port in that cycle; for `N = 1` it is the complement of `FULL`. -/
def Obligations.EmptyReportsTheFlag : Prop :=
  (∀ d, decodeCommand 3 d = .empty) ∧ encode .w8 .empty = .command 0x300 ∧
  (∀ s, ∃ t, exec .empty s = .next t ∧ FifoKept s t ∧ SurroundKept s t ∧
    response t = (0, if s.count = 0 then 1 else 0)) ∧
  (∀ s, (cycleInputs s).rst = false → (cycleInputs s).cmdValid = true → (cycleInputs s).cmdOp = 3 →
    ∃ t, step s = .next t ∧ response t = (0, if t.out.empty then 1 else 0)) ∧
  (∀ s t u, InRange s → s.cfg.depth = 1 → exec .empty s = .next t → exec .full s = .next u →
    t.out.rspData = 1 - u.out.rspData)

/-- R87: `FULL` completes in every state, changes nothing, answers the flag; when it is the command of a
cycle its answer equals the `full` port in that cycle. -/
def Obligations.FullReportsTheFlag : Prop :=
  (∀ d, decodeCommand 4 d = .full) ∧ encode .w8 .full = .command 0x400 ∧
  (∀ s, ∃ t, exec .full s = .next t ∧ FifoKept s t ∧ SurroundKept s t ∧
    response t = (0, if s.count = s.cfg.depth then 1 else 0)) ∧
  ∀ s, (cycleInputs s).rst = false → (cycleInputs s).cmdValid = true → (cycleInputs s).cmdOp = 4 →
    ∃ t, step s = .next t ∧ response t = (0, if t.out.full then 1 else 0)

/-- R89: the reserved opcodes complete in every state by raising `IllegalCommand`: no state changes,
the response is `(ILLEGAL, 0)`. -/
def Obligations.ReservedOpcodesRaiseIllegal : Prop :=
  (∀ d, decodeCommand 6 d = .rsvd6) ∧ (∀ d, decodeCommand 7 d = .rsvd7) ∧
  encode .w8 .rsvd6 = .command 0x600 ∧ encode .w8 .rsvd7 = .command 0x700 ∧
  ∀ s, (∃ t, exec .rsvd6 s = .next t ∧ FifoKept s t ∧ SurroundKept s t ∧ response t = (3, 0)) ∧
    (∃ t, exec .rsvd7 s = .next t ∧ FifoKept s t ∧ SurroundKept s t ∧ response t = (3, 0))

/-- R100: `SWAP16` completes in every state: `sw16_out` shows the operand with its bytes exchanged and
nothing else changes (the operand stands on `sw16_in`). The fixed points are the values with equal
bytes. -/
def Obligations.Swap16ReversesTheTwoBytes : Prop :=
  (∀ W v, decode W (.swap16 v) = .ok (.swap16 v)) ∧
  (∀ (s : State) (v : BitVec 16), ∃ r : BitVec 16,
    exec (.swap16 v) s =
      .next { s with pins := { s.pins with sw16In := v }, out := { s.out with sw16Out := r } } ∧
    r = (v <<< 8) ||| (v >>> 8) ∧
    (∀ i, i < 8 → r.getLsbD i = v.getLsbD (i + 8)) ∧
    (∀ i, 8 ≤ i → i < 16 → r.getLsbD i = v.getLsbD (i - 8)) ∧
    (r = v ↔ byteOf v 0 = byteOf v 1)) ∧
  swap16 32 = 8192

/-- R101: `SWAP32` completes in every state: `sw32_out` shows the operand with its four bytes reversed
and nothing else changes (the operand stands on `sw32_in`). The fixed points are the values with
`b0 = b3` and `b1 = b2`. -/
def Obligations.Swap32ReversesTheFourBytes : Prop :=
  (∀ W v, decode W (.swap32 v) = .ok (.swap32 v)) ∧
  (∀ (s : State) (v : BitVec 32), ∃ r : BitVec 32,
    exec (.swap32 v) s =
      .next { s with pins := { s.pins with sw32In := v }, out := { s.out with sw32Out := r } } ∧
    r = ((byteOf v 0).setWidth 32 <<< 24) ||| ((byteOf v 1).setWidth 32 <<< 16) |||
      ((byteOf v 2).setWidth 32 <<< 8) ||| (byteOf v 3).setWidth 32 ∧
    (∀ k j, k < 4 → j < 8 → r.getLsbD (8 * k + j) = v.getLsbD (8 * (3 - k) + j)) ∧
    (r = v ↔ byteOf v 0 = byteOf v 3 ∧ byteOf v 1 = byteOf v 2)) ∧
  swap32 32 = 536870912

/-! ## The clock cycle -/

/-- A STEP RUNS THE DECODED INSTRUCTION. When the inputs of the cycle present a command word that
decodes to `i`, the step is `exec i` in a state that differs from the present one in the ports only:
the inputs stand on the pins, the flags and both swap results are shown. -/
def Obligations.StepRunsTheDecodedCommand : Prop :=
  ∀ (s : State) (i : Instr), (cycleInputs s).rst = false → (cycleInputs s).cmdValid = true →
    decode s.cfg.width
      (.command (commandWord s.cfg.width (cycleInputs s).cmdOp (cycleInputs s).cmdData)) = .ok i →
    ∃ u, step s = exec i u ∧ FifoKept s u ∧ u.cfg = s.cfg ∧ u.pins = cycleInputs s ∧
      u.stimulus = s.stimulus.tail ∧
      u.out = { s.out with
        empty := emptyFlag s
        full := fullFlag s
        sw16Out := swap16 (cycleInputs s).sw16In
        sw32Out := swap32 (cycleInputs s).sw32In }

/-- A STEP RUNS BOTH SWAPS, in every cycle: before its sync_fifo half it is `exec` of `SWAP16` and then
`SWAP32` on the operands that stand on their ports. -/
def Obligations.StepEvaluatesBothSwapPorts : Prop :=
  ∀ s, ∃ u v, exec (.swap16 (cycleInputs s).sw16In) (beginCycle s) = .next u ∧
    exec (.swap32 (cycleInputs s).sw32In) u = .next v ∧ step s = fifoCycle v ∧ FifoKept s v

/-- R130: the clocked step. A reset cycle works from every state, beats any command, writes no slot and
answers `(0, 0)`; an idle cycle changes no state and answers `(0, 0)`; a command cycle is `exec` of the
decoded command. In all three the flag ports show the flags of the state before the cycle. -/
def Obligations.EachCycleFollowsTheClockedStep : Prop :=
  ∀ s : State,
    ((cycleInputs s).rst = true → ∃ t, step s = .next t ∧
      t.head = 0 ∧ t.tail = 0 ∧ t.count = 0 ∧ t.mem = s.mem ∧ response t = (0, 0)) ∧
    ((cycleInputs s).rst = false → (cycleInputs s).cmdValid = false → ∃ t, step s = .next t ∧
      FifoKept s t ∧ response t = (0, 0)) ∧
    ((cycleInputs s).rst = false → (cycleInputs s).cmdValid = true → ∃ u, FifoKept s u ∧
      u.cfg = s.cfg ∧
      step s = exec (decodeCommand (cycleInputs s).cmdOp
        (dataLow s.cfg.width (cycleInputs s).cmdData)) u) ∧
    ∀ t, step s = .next t → t.out.empty = (s.count == 0) ∧ t.out.full = (s.count == s.cfg.depth)

/-- R63, R70: the data bits of a command without an operand are ignored: a cycle that presents one does
the same whatever stands on `cmd_data`, but for the pins themselves. -/
def Obligations.DataBitsOfOtherCommandsAreIgnored : Prop :=
  ∀ (s t : State) (p : Inputs) (rest : List Inputs) (d : Data),
    p.rst = false → p.cmdValid = true → p.cmdOp ≠ 1 →
    step { s with stimulus := p :: rest } = .next t →
    step { s with stimulus := { p with cmdData := d } :: rest } =
      .next { t with pins := { p with cmdData := d } }

/-- R65, R130: in an idle cycle and in a reset cycle the command ports are ignored. -/
def Obligations.IdleAndResetIgnoreTheCommandPorts : Prop :=
  ∀ (s : State) (p : Inputs) (rest : List Inputs) (op : BitVec 3) (d : Data),
    p.rst = true ∨ p.cmdValid = false →
    ∃ t, step { s with stimulus := p :: rest } = .next t ∧
      step { s with stimulus := { p with cmdOp := op, cmdData := d } :: rest } =
        .next { t with pins := { p with cmdOp := op, cmdData := d } }

/-- R2, R60: no swap operand affects sync_fifo: with other operands on both swap ports a step gives the
same registers, storage, response and flags. -/
def Obligations.SwapOperandsDoNotReachTheFifo : Prop :=
  ∀ (s t : State) (p : Inputs) (rest : List Inputs) (a : BitVec 16) (b : BitVec 32),
    step { s with stimulus := p :: rest } = .next t →
    ∃ u, step { s with stimulus := { p with sw16In := a, sw32In := b } :: rest } = .next u ∧
      FifoKept t u ∧ response u = response t ∧ u.out.empty = t.out.empty ∧ u.out.full = t.out.full

/-- R103: purity of the two swaps: whatever the state and the other inputs, each swap output shows the
swap of the operand on its own port, in the same cycle. -/
def Obligations.SwapOutputsDependOnTheirOperandAlone : Prop :=
  ∀ s t, step s = .next t →
    t.out.sw16Out = swap16 (cycleInputs s).sw16In ∧ t.out.sw32Out = swap32 (cycleInputs s).sw32In ∧
    t.pins.sw16In = (cycleInputs s).sw16In ∧ t.pins.sw32In = (cycleInputs s).sw32In

/-- R80: a command reads nothing but the state of R20 and its parameters: from other ports, earlier
responses and coming inputs it gives the same registers, storage and response. -/
def Obligations.CommandsReadOnlyTheFifoState : Prop :=
  ∀ (i : Instr) (s t : State) (pins : Inputs) (out : Outputs) (stimulus : List Inputs),
    i.isCommand = true → exec i s = .next t →
    ∃ u, exec i { s with pins := pins, out := out, stimulus := stimulus } = .next u ∧
      FifoKept t u ∧ response u = response t

/-- R50: a value added in one cycle can be returned by a `GET` in the next. -/
def Obligations.AddIsSeenByGetInTheNextCycle : Prop :=
  ∀ (s : State) (p q : Inputs) (rest : List Inputs), BufferInv s → s.count = 0 →
    s.stimulus = p :: q :: rest →
    p.rst = false → p.cmdValid = true → p.cmdOp = 1 →
    q.rst = false → q.cmdValid = true → q.cmdOp = 2 →
    ∃ t u, step s = .next t ∧ response t = (0, 0) ∧ step t = .next u ∧
      response u = (0, dataLow s.cfg.width p.cmdData) ∧ u.out.empty = false ∧ u.count = 0

/-! ## Reset, invariants, safety -/

/-- R33: what reset leaves, and equally `INIT` and `CLEAR`, for every block: the model's state after
reset, the next state of a cycle with `rst = 1`, and the next state of either command. (The storage is
unspecified, so nothing is said of it.) -/
def Obligations.ResetLeavesTheSpecifiedState : Prop :=
  ∀ t : State,
    ((∃ c, t = State.resetOf c) ∨ (∃ s, (cycleInputs s).rst = true ∧ step s = .next t) ∨
      (∃ s, exec .init s = .next t) ∨ (∃ s, exec .clear s = .next t)) →
    t.head = 0 ∧ t.tail = 0 ∧ t.count = 0 ∧ emptyFlag t = true ∧ fullFlag t = false ∧
      level t = .empty ∧ contents t = []

/-- R133: reset, `INIT` and `CLEAR` are the same state change, and reset works from every state. -/
def Obligations.ResetInitAndClearAreOneStateChange : Prop :=
  ∀ s s' : State, FifoKept s s' → (cycleInputs s').rst = true →
    ∃ t u, exec .init s = .next t ∧ exec .clear s = .next t ∧ response t = (0, 0) ∧
      step s' = .next u ∧ FifoKept t u ∧
      t.head = 0 ∧ t.tail = 0 ∧ t.count = 0 ∧ t.mem = s.mem

/-- The invariant holds after reset, for every block. -/
def Obligations.ResetHasTheInvariant : Prop := ∀ c, BufferInv (State.resetOf c)

/-- EVERY STEP KEEPS THE INVARIANT: the ranges of R25, the cursor equation of R26, the canonical form of
the storage, and a written window (R34). -/
def Obligations.EveryStepKeepsTheInvariant : Prop := ∀ s t, BufferInv s → step s = .next t → BufferInv t

/-- R137, R25: from a state whose registers are in range, whatever the inputs, the step answers a next
state whose registers are in range: the block never stops. -/
def Obligations.TheBlockNeverStops : Prop := ∀ s, InRange s → ∃ t, step s = .next t ∧ InRange t

/-- R25: the ranges of the registers in every reachable state. -/
def Obligations.ReachableRegistersAreInRange : Prop :=
  ∀ s, Reachable s → s.count ≤ s.cfg.depth ∧ s.head < s.cfg.depth ∧ s.tail < s.cfg.depth

/-- R26: the cursor equation in every reachable state, and when the cursors meet. -/
def Obligations.ReachableCursorsAgreeWithCount : Prop :=
  ∀ s, Reachable s → s.head = (s.tail + s.count) % s.cfg.depth ∧
    (s.head = s.tail ↔ s.count = 0 ∨ s.count = s.cfg.depth)

/-- R28: the two flags are never both 1; both 0 only when `N >= 2`; for `N = 1` exactly one is 1 in
every reachable state. -/
def Obligations.FlagsAreNeverBothSet : Prop :=
  (∀ s, ¬ (emptyFlag s = true ∧ fullFlag s = true)) ∧
  (∀ s, Reachable s → emptyFlag s = false → fullFlag s = false → 2 ≤ s.cfg.depth) ∧
  ∀ s, Reachable s → s.cfg.depth = 1 → (emptyFlag s = true ↔ fullFlag s = false)

/-- The build parameters never change while the block runs (R7), by instruction and by step. -/
def Obligations.ParametersNeverChange : Prop :=
  (∀ i s t, exec i s = .next t → t.cfg = s.cfg) ∧ ∀ s t, step s = .next t → t.cfg = s.cfg

/-- Every instruction and every step keeps the canonical form of the storage, in every state. -/
def Obligations.StorageKeepsItsCanonicalForm : Prop :=
  (∀ i s t, s.mem.wf → exec i s = .next t → t.mem.wf) ∧
  ∀ s t, s.mem.wf → step s = .next t → t.mem.wf

/-- The response data of a command fits the `W` wires of `rsp_data` (R8, R60, R66). -/
def Obligations.ResponseDataFitsItsPort : Prop :=
  ∀ i s t, i.isCommand = true → exec i s = .next t → t.out.rspData.toNat < 2 ^ s.cfg.width.bits

/-- THE MODEL'S CHOICE (log 5): no instruction is refused, and one faults only where a cursor is
outside its range, exactly when it would access a slot that does not exist (R40). -/
def Obligations.OnlyAMissingSlotFaults : Prop :=
  ∀ i s, (∀ r, exec i s ≠ .refused r) ∧
    ∀ f, exec i s = .fault f ↔ f = .noSuchSlot ∧
      ((∃ v, i = .add v ∧ s.cfg.depth ≤ storeAddress s ∧
          (s.count < s.cfg.depth ∨ s.cfg.policy = .overwrite)) ∨
        (i = .get ∧ s.count ≠ 0 ∧ s.cfg.depth ≤ loadAddress s))

/-! ## Registers, widths, transitions -/

/-- R43: the cursor step wraps at `N`, and no command but `INIT` and `CLEAR` moves a cursor in any other
way or by more than one slot. -/
def Obligations.CursorsAdvanceModuloTheDepth : Prop :=
  (∀ N c, c < N → advance N c < N ∧ advance N c = if c = N - 1 then 0 else c + 1) ∧
  ∀ i s t, exec i s = .next t → i ≠ .init → i ≠ .clear →
    (t.head = s.head ∨ t.head = advance s.cfg.depth s.head) ∧
    (t.tail = s.tail ∨ t.tail = advance s.cfg.depth s.tail)

/-- R10: `AW` and `CW` are the logarithms the rule gives: the least widths (`AW` at least 1) whose
registers hold every cursor and every count. -/
def Obligations.RegisterWidthsAreTheLeast : Prop :=
  ∀ (c : Config) (k : Nat),
    (c.addrWidth ≤ k ↔ 1 ≤ k ∧ c.depth ≤ 2 ^ k) ∧ (c.countWidth ≤ k ↔ c.depth + 1 ≤ 2 ^ k)

/-- R91: the complete transition table of the abstract states, with the status of every command. -/
def Obligations.TransitionTableOfTheAbstractStates : Prop :=
  ∀ (i : Instr) (s : State), InRange s → i.isCommand = true → ∃ t, exec i s = .next t ∧
    match i with
    | .init => level t = .empty ∧ t.out.rspStatus = 0
    | .clear => level t = .empty ∧ t.out.rspStatus = 0
    | .empty => FifoKept s t ∧ t.out.rspStatus = 0
    | .full => FifoKept s t ∧ t.out.rspStatus = 0
    | .rsvd6 => FifoKept s t ∧ t.out.rspStatus = 3
    | .rsvd7 => FifoKept s t ∧ t.out.rspStatus = 3
    | .add _ =>
      match level s with
      | .empty => t.out.rspStatus = 0 ∧ t.count = 1 ∧
          level t = if s.cfg.depth = 1 then .full else .part
      | .part => t.out.rspStatus = 0 ∧ level t = if s.count + 1 < s.cfg.depth then .part else .full
      | .full => level t = .full ∧
          if s.cfg.policy = .overwrite then t.out.rspStatus = 0
          else t.out.rspStatus = 2 ∧ FifoKept s t
    | .get =>
      match level s with
      | .empty => t.out.rspStatus = 1 ∧ FifoKept s t
      | .part => t.out.rspStatus = 0 ∧ level t = if 0 < s.count - 1 then .part else .empty
      | .full => t.out.rspStatus = 0 ∧ t.count = s.cfg.depth - 1 ∧
          level t = if s.cfg.depth = 1 then .empty else .part
    | .swap16 _ => True
    | .swap32 _ => True

/-! ## Exceptions -/

/-- R110: the exact cause of each status code, and no other code: every command of a block whose
registers are in range answers, with 1 for `GET` on empty, 2 for `ADD` on full under `REJECT`, 3 for
the reserved opcodes, 0 otherwise; the swaps raise nothing. -/
def Obligations.EachStatusHasItsExactCause : Prop :=
  (∀ (i : Instr) (s : State), InRange s → i.isCommand = true → ∃ t, exec i s = .next t ∧
    (t.out.rspStatus = 1 ↔ i = .get ∧ s.count = 0) ∧
    (t.out.rspStatus = 2 ↔ (∃ v, i = .add v) ∧ s.count = s.cfg.depth ∧ s.cfg.policy = .reject) ∧
    (t.out.rspStatus = 3 ↔ i = .rsvd6 ∨ i = .rsvd7) ∧
    (t.out.rspStatus = 0 ∨ FifoKept s t)) ∧
  ∀ (i : Instr) (s : State), i.isCommand = false → ∃ t, exec i s = .next t ∧ FifoKept s t ∧
    response t = response s

/-- R116: raising an exception keeps `mem`, `head`, `tail` and `count`, shows that exception's code and
the datum 0, and touches nothing else; and a command whose status is not 0 has done exactly that: `GET`
with the code 1 of `Underflow`, `ADD` with the code 2 of `Overflow`, a reserved opcode with the code 3 of
`IllegalCommand`. -/
def Obligations.ExceptionsChangeNoState : Prop :=
  (∀ e s, ∃ t, raise e s = .next t ∧ FifoKept s t ∧ SurroundKept s t ∧
    response t = (match e with
      | .underflow => 1
      | .overflow => 2
      | .illegalCommand => 3, 0)) ∧
  ∀ i s t, i.isCommand = true → exec i s = .next t → t.out.rspStatus ≠ 0 →
    FifoKept s t ∧ SurroundKept s t ∧ t.out.rspData = 0 ∧
    ((i = .get ∧ t.out.rspStatus = 1 ∧ raise .underflow s = .next t) ∨
      ((∃ v, i = .add v) ∧ t.out.rspStatus = 2 ∧ raise .overflow s = .next t) ∨
      ((i = .rsvd6 ∨ i = .rsvd7) ∧ t.out.rspStatus = 3 ∧ raise .illegalCommand s = .next t))

/-- R117: an exception leaves nothing behind: after a command that failed, the next command does exactly
what it would have done had the failed one never been presented. -/
def Obligations.ExceptionsLeaveNothingBehind : Prop :=
  ∀ i j s t, i.isCommand = true → j.isCommand = true → exec i s = .next t → t.out.rspStatus ≠ 0 →
    exec j t = exec j s

/-- R84: `ADD` on a full buffer under `REJECT` changes nothing; a `GET` after it returns the oldest
element and an `ADD` after that `GET` succeeds. -/
def Obligations.RejectedAddLosesOnlyItsOperand : Prop :=
  ∀ (s : State) (v : Data), BufferInv s → s.count = s.cfg.depth → s.cfg.policy = .reject →
    ∃ t, exec (.add v) s = .next t ∧ FifoKept s t ∧ contents t = contents s ∧ response t = (2, 0) ∧
      ∃ u, exec .get t = .next u ∧ u.out.rspStatus = 0 ∧
        (contents s).head? = some u.out.rspData ∧
        ∀ w, ∃ x, exec (.add w) u = .next x ∧ x.out.rspStatus = 0 ∧
          contents x = (contents s).tail ++ [dataLow s.cfg.width w]

/-! ## The buffer as a queue -/

/-- R34: one command on the block is one command on a bounded queue: from a state with the invariant it
completes, keeps the invariant, and changes the contents and answers as the queue does. -/
def Obligations.EachCommandActsAsOnAQueue : Prop :=
  ∀ (i : Instr) (s : State), BufferInv s → i.isCommand = true →
    ∃ t, exec i s = .next t ∧ BufferInv t ∧ (contents t, response t) = queueExec s.cfg i (contents s)

/-- THE REFINEMENT (R34, R92): every command stream, from every state with the invariant, runs to its
end, and its responses and final contents are those of the bounded queue. -/
def Obligations.CommandStreamsRefineTheQueue : Prop :=
  ∀ (is : List Instr) (s : State), BufferInv s → (∀ i ∈ is, i.isCommand = true) →
    ∃ t rs, execList is s = some (t, rs) ∧ BufferInv t ∧ (contents t, rs) = queueList s.cfg is (contents s)

/-- R35: hidden storage cannot be observed: two states that agree but for slots outside the window (and
their ports) give the same responses to every command stream, and agree again at its end. -/
def Obligations.StaleSlotsAreNeverObserved : Prop :=
  ∀ (is : List Instr) (s s' : State), BufferInv s → BufferInv s' → SameWindow s s' →
    (∀ i ∈ is, i.isCommand = true) →
    ∃ t t' rs, execList is s = some (t, rs) ∧ execList is s' = some (t', rs) ∧ SameWindow t t'

/-- R83: under `OVERWRITE` an `ADD` on a full buffer evicts the oldest element without a signal, into
whose slot it writes; after any number of further `ADD`s the contents are the last `N` values. -/
def Obligations.OverwriteKeepsTheNewestElements : Prop :=
  (∀ (s : State) (v : Data), BufferInv s → s.count = s.cfg.depth → s.cfg.policy = .overwrite →
    ∃ t, exec (.add v) s = .next t ∧ storeAddress s = loadAddress s ∧ fullFlag t = true ∧
      response t = (0, 0) ∧ contents t = (contents s).tail ++ [dataLow s.cfg.width v]) ∧
  ∀ (vs : List Data) (s : State), BufferInv s → s.count = s.cfg.depth → s.cfg.policy = .overwrite →
    ∃ t rs, execList (vs.map .add) s = some (t, rs) ∧ (∀ r ∈ rs, r = (0, 0)) ∧
      contents t = lastElements s.cfg.depth (contents s ++ vs.map (dataLow s.cfg.width))

/-- R92 items 1 and 2: `ADD`s into an empty buffer fill it: up to `N` of them are all held, in order,
and the buffer is full exactly after the `N`th. -/
def Obligations.AddsFillAnEmptyBuffer : Prop :=
  ∀ (vs : List Data) (s : State), BufferInv s → s.count = 0 → vs.length ≤ s.cfg.depth →
    ∃ t rs, execList (vs.map .add) s = some (t, rs) ∧ (∀ r ∈ rs, r = (0, 0)) ∧
      contents t = vs.map (dataLow s.cfg.width) ∧
      (fullFlag t = true ↔ vs.length = s.cfg.depth) ∧ (emptyFlag t = true ↔ vs = [])

/-- R92 item 3: the round trip: on an empty buffer, wherever its cursors stand, `ADD v` then `GET`
returns `v` and leaves the buffer empty. -/
def Obligations.AddThenGetReturnsTheValue : Prop :=
  ∀ (s : State) (v : Data), BufferInv s → s.count = 0 →
    ∃ t u, exec (.add v) s = .next t ∧ exec .get t = .next u ∧
      response u = (0, dataLow s.cfg.width v) ∧ emptyFlag u = true

/-- R92 item 3, the general form: as long as no element is evicted, the values that successful `GET`s
return are those that successful `ADD`s put in, in the same order: the old contents and the values put in
are, together, the values returned and the contents left. From an empty buffer (after a reset) the `k`th
successful `GET` returns the operand of the `k`th successful `ADD`. -/
def Obligations.GetsReturnAddsInOrder : Prop :=
  ∀ (is : List Instr) (s : State), BufferInv s → NoEviction is s →
    (∀ i ∈ is, i.isCommand = true ∧ i ≠ .init ∧ i ≠ .clear) →
    ∃ t rs, execList is s = some (t, rs) ∧
      contents s ++ acceptedValues s.cfg.width is rs = returnedValues is rs ++ contents t ∧
      (s.count = 0 → ∀ k, k < (returnedValues is rs).length →
        (returnedValues is rs)[k]? = (acceptedValues s.cfg.width is rs)[k]?)

/-- R92 item 8: after a reset cycle no response depends on what the storage held before, in whatever
state two blocks of the same parameters were, reachable or not. -/
def Obligations.ResponsesAfterResetIgnoreTheStorage : Prop :=
  ∀ (is : List Instr) (s s' : State), s'.cfg = s.cfg → (∀ i ∈ is, i.isCommand = true) →
    (cycleInputs s).rst = true → (cycleInputs s').rst = true →
    ∃ u u' t t' rs, step s = .next u ∧ step s' = .next u' ∧
      execList is u = some (t, rs) ∧ execList is u' = some (t', rs) ∧ SameWindow t t'

/-- The last sentence of R139, one scenario under each of the two policies: from a full buffer, `ADD v` and then `N` `GET`s
return the `N` old elements under `REJECT`, and the `N - 1` newest of them followed by `v` under
`OVERWRITE`; the buffer is then empty. -/
def Obligations.AddOnFullThenDrainUnderEachPolicy : Prop :=
  ∀ (s : State) (v : Data), BufferInv s → s.count = s.cfg.depth →
    ∃ t, emptyFlag t = true ∧
      if s.cfg.policy = .reject then
        execList (.add v :: List.replicate s.cfg.depth .get) s =
          some (t, (2, 0) :: (contents s).map fun x => (0, x))
      else
        execList (.add v :: List.replicate s.cfg.depth .get) s =
          some (t, (0, 0) ::
            ((contents s).tail ++ [dataLow s.cfg.width v]).map fun x => (0, x))

/-! ## The swap laws -/

/-- R102: both swaps are involutions. -/
def Obligations.SwapsAreInvolutions : Prop :=
  (∀ x : BitVec 16, swap16 (swap16 x) = x) ∧ ∀ x : BitVec 32, swap32 (swap32 x) = x

/-- R105: the 32-bit swap swaps each half and exchanges the halves; a zero-extended 16-bit value gives
the 16-bit swap in the upper half. -/
def Obligations.Swap32IsSwap16OfTheHalves : Prop :=
  (∀ x : BitVec 32, swap32 x = swap16 (x.extractLsb' 0 16) ++ swap16 (x.extractLsb' 16 16)) ∧
  (∀ v : BitVec 16, swap32 (v.setWidth 32) = swap16 v ++ (0 : BitVec 16)) ∧
  ∀ v : BitVec 16, swap32 (v.setWidth 32) = (swap16 v).setWidth 32 <<< 16

/-- 20_memory.md, rule R46: byte `k` of the result is byte `n - 1 - k` of the operand, so the result sent
least significant byte first is the operand in big-endian order. -/
def Obligations.SwapsReverseTheByteOrder : Prop :=
  (∀ (x : BitVec 16) (k : Nat), k < 2 → byteOf (swap16 x) k = byteOf x (1 - k)) ∧
  ∀ (x : BitVec 32) (k : Nat), k < 4 → byteOf (swap32 x) k = byteOf x (3 - k)

/-! ## Encoding -/

/-- R70: DECODE AND ENCODE AGREE, for every slot width and every instruction that can be presented; a
command word is encoded back exactly when it is an `ADD` or its data bits are zero; and the tables of
the decoder (with `rsvd6` and `rsvd7` for R70's `Illegal`) and of the encoder. -/
def Obligations.DecodeAndEncodeAgree : Prop :=
  (∀ (W : SlotWidth) (i : Instr), i.wellFormed W = true → decode W (encode W i) = .ok i) ∧
  (∀ (W : SlotWidth) (w : BitVec 35) (i : Instr), decode W (.command w) = .ok i →
    (encode W i = .command w ↔ (∃ v, i = .add v) ∨ dataField W w = 0)) ∧
  (∀ (W : SlotWidth) (op : BitVec 3) (d : Data),
    decode W (.command (commandWord W op d)) = .ok (decodeCommand op (dataLow W d))) ∧
  (∀ d, [decodeCommand 0 d, decodeCommand 1 d, decodeCommand 2 d, decodeCommand 3 d,
      decodeCommand 4 d, decodeCommand 5 d, decodeCommand 6 d, decodeCommand 7 d] =
    [.init, .add d, .get, .empty, .full, .clear, .rsvd6, .rsvd7]) ∧
  ∀ W v, [encode W .init, encode W (.add v), encode W .get, encode W .empty, encode W .full,
      encode W .clear] =
    [.command (commandWord W 0 0), .command (commandWord W 1 v), .command (commandWord W 2 0),
      .command (commandWord W 3 0), .command (commandWord W 4 0), .command (commandWord W 5 0)]

/-- The decoder is total on the words a port can carry, answers well-formed instructions only, and
rejects exactly the command words with a bit above their `3 + W` wires (log 13). -/
def Obligations.DecoderRejectsOnlyWordsTooWide : Prop :=
  ∀ (W : SlotWidth) (w : BitVec 35),
    (w.toNat < 2 ^ (3 + W.bits) →
      ∃ i, decode W (.command w) = .ok i ∧ i.wellFormed W = true ∧ i.isCommand = true) ∧
    (2 ^ (3 + W.bits) ≤ w.toNat → decode W (.command w) = .error .wordTooWide)

/-- DECODING IS RIGHT on words written out from 95_test_vectors.md: `W = 8`, `W = 16` and `W = 32`. -/
def Obligations.WordsOfTheSpecDecodeAsWritten : Prop :=
  decode .w8 (.command 0b00000000000) = .ok .init ∧
  decode .w8 (.command 0b00100110111) = .ok (.add 55) ∧
  decode .w8 (.command 0b01010101011) = .ok .get ∧
  decode .w8 (.command 0b01100000000) = .ok .empty ∧
  decode .w8 (.command 0b10000000000) = .ok .full ∧
  decode .w8 (.command 0b10100000001) = .ok .clear ∧
  decode .w8 (.command 0b11000000000) = .ok .rsvd6 ∧
  decode .w8 (.command 0b11111111111) = .ok .rsvd7 ∧
  decode .w16 (.command 0x11234) = .ok (.add 0x1234) ∧
  decode .w32 (.command 0x1DEADBEEF) = .ok (.add 0xDEADBEEF)

/-! ## Listings -/

/-- R68, R69: what each line of a listing does. A swap line is `exec` of the swap with no clock cycle: the
state of R20, the response, the flag ports and the coming inputs are as they were, its port shows the
result. A command line is the step whose inputs present the fields of the command's word with
`cmd_valid = 1`, and runs `exec` of it; `NOP` is the step with `rst = 0` and `cmd_valid = 0`; `RESET` is
the step with `rst = 1`. Each of these steps holds the other inputs. -/
def Obligations.SwapLinesTakeNoClockCycle : Prop :=
  (∀ (s : State) (v : BitVec 16), ∃ t, runLine (.instr (.swap16 v)) s = .next t ∧
    exec (.swap16 v) s = .next t ∧ FifoKept s t ∧ t.cfg = s.cfg ∧ t.stimulus = s.stimulus ∧
    t.pins = { s.pins with sw16In := v } ∧ t.out = { s.out with sw16Out := swap16 v }) ∧
  (∀ (s : State) (v : BitVec 32), ∃ t, runLine (.instr (.swap32 v)) s = .next t ∧
    exec (.swap32 v) s = .next t ∧ FifoKept s t ∧ t.cfg = s.cfg ∧ t.stimulus = s.stimulus ∧
    t.pins = { s.pins with sw32In := v } ∧ t.out = { s.out with sw32Out := swap32 v }) ∧
  (∀ (i : Instr) (s : State), i.isCommand = true → i.wellFormed s.cfg.width = true →
    ∃ w p u, encode s.cfg.width i = .command w ∧
      p = { s.pins with
        rst := false
        cmdValid := true
        cmdOp := opField s.cfg.width w
        cmdData := dataField s.cfg.width w } ∧
      runLine (.instr i) s = step { s with stimulus := p :: s.stimulus } ∧
      runLine (.instr i) s = exec i u ∧ FifoKept s u ∧ u.cfg = s.cfg ∧ u.pins = p ∧
      u.stimulus = s.stimulus) ∧
  (∀ s, ∃ t, runLine .nop s = .next t ∧
    step { s with stimulus := { s.pins with rst := false, cmdValid := false } :: s.stimulus } = .next t ∧
    FifoKept s t ∧ response t = (0, 0)) ∧
  ∀ s, ∃ t u, runLine .reset s = .next t ∧
    step { s with stimulus := { s.pins with rst := true, cmdValid := false } :: s.stimulus } = .next t ∧
    exec .init s = .next u ∧ FifoKept u t ∧ response t = (0, 0)

/-- R68: the clock counts the lines that are no swap lines. The stimulus assembled from a listing has one
cycle for each of them and none for a swap line; running it leaves the state of R20 and the response that
the listing leaves; and so does the listing without its swap lines. -/
def Obligations.ListingsClockOnlyTheirOtherLines : Prop :=
  (∀ W held ls, (assemble W held ls).length = (ls.filter Line.takesCycle).length) ∧
  ∀ (ls : List Line) (s : State), InRange s →
    ∃ t u v, runListing ls s = .next t ∧
      runAll runCycle (assemble s.cfg.width s.pins ls) s = .next u ∧
      runListing (ls.filter Line.takesCycle) s = .next v ∧
      FifoKept t u ∧ response u = response t ∧ u.stimulus = t.stimulus ∧
      FifoKept t v ∧ response v = response t ∧ v.stimulus = t.stimulus

/-- R68: a line whose number is out of its range is not a program: the parser of listings answers only
instructions that can be presented, and their words decode to them. -/
def Obligations.ParsedLinesCanBePresented : Prop :=
  ∀ (W : SlotWidth) (text : List Char) (i : Instr), parseLine W text = some (.instr i) →
    i.wellFormed W = true ∧ decode W (encode W i) = .ok i
end

