-- ==== Sys2Proof/Laws/State.lean ====
section
/-! SUPPORT. One lemma per field per update of State. -/

namespace Sys2Proof.Machine

/-! ### setMem -/

@[simp] theorem setMem_cfg (s : State) (m : Memory) : (setMem s m).cfg = s.cfg := rfl
@[simp] theorem setMem_mem (s : State) (m : Memory) : (setMem s m).mem = m := rfl
@[simp] theorem setMem_head (s : State) (m : Memory) : (setMem s m).head = s.head := rfl
@[simp] theorem setMem_tail (s : State) (m : Memory) : (setMem s m).tail = s.tail := rfl
@[simp] theorem setMem_count (s : State) (m : Memory) : (setMem s m).count = s.count := rfl
@[simp] theorem setMem_pins (s : State) (m : Memory) : (setMem s m).pins = s.pins := rfl
@[simp] theorem setMem_out (s : State) (m : Memory) : (setMem s m).out = s.out := rfl
@[simp] theorem setMem_stimulus (s : State) (m : Memory) :
    (setMem s m).stimulus = s.stimulus := rfl

/-! ### setCursors -/

@[simp] theorem setCursors_cfg (s : State) (h t c : Nat) : (setCursors s h t c).cfg = s.cfg := rfl
@[simp] theorem setCursors_mem (s : State) (h t c : Nat) : (setCursors s h t c).mem = s.mem := rfl
@[simp] theorem setCursors_head (s : State) (h t c : Nat) : (setCursors s h t c).head = h := rfl
@[simp] theorem setCursors_tail (s : State) (h t c : Nat) : (setCursors s h t c).tail = t := rfl
@[simp] theorem setCursors_count (s : State) (h t c : Nat) : (setCursors s h t c).count = c := rfl
@[simp] theorem setCursors_pins (s : State) (h t c : Nat) :
    (setCursors s h t c).pins = s.pins := rfl
@[simp] theorem setCursors_out (s : State) (h t c : Nat) : (setCursors s h t c).out = s.out := rfl
@[simp] theorem setCursors_stimulus (s : State) (h t c : Nat) :
    (setCursors s h t c).stimulus = s.stimulus := rfl

/-! ### respond -/

@[simp] theorem respond_cfg (s : State) (st : Status) (d : Data) :
    (respond s st d).cfg = s.cfg := rfl
@[simp] theorem respond_mem (s : State) (st : Status) (d : Data) :
    (respond s st d).mem = s.mem := rfl
@[simp] theorem respond_head (s : State) (st : Status) (d : Data) :
    (respond s st d).head = s.head := rfl
@[simp] theorem respond_tail (s : State) (st : Status) (d : Data) :
    (respond s st d).tail = s.tail := rfl
@[simp] theorem respond_count (s : State) (st : Status) (d : Data) :
    (respond s st d).count = s.count := rfl
@[simp] theorem respond_pins (s : State) (st : Status) (d : Data) :
    (respond s st d).pins = s.pins := rfl
@[simp] theorem respond_out (s : State) (st : Status) (d : Data) :
    (respond s st d).out = { s.out with rspStatus := statusCode st, rspData := d } := rfl
@[simp] theorem respond_stimulus (s : State) (st : Status) (d : Data) :
    (respond s st d).stimulus = s.stimulus := rfl

/-! ### showFlags -/

@[simp] theorem showFlags_cfg (s : State) : (showFlags s).cfg = s.cfg := rfl
@[simp] theorem showFlags_mem (s : State) : (showFlags s).mem = s.mem := rfl
@[simp] theorem showFlags_head (s : State) : (showFlags s).head = s.head := rfl
@[simp] theorem showFlags_tail (s : State) : (showFlags s).tail = s.tail := rfl
@[simp] theorem showFlags_count (s : State) : (showFlags s).count = s.count := rfl
@[simp] theorem showFlags_pins (s : State) : (showFlags s).pins = s.pins := rfl
@[simp] theorem showFlags_out (s : State) :
    (showFlags s).out = { s.out with empty := emptyFlag s, full := fullFlag s } := rfl
@[simp] theorem showFlags_stimulus (s : State) : (showFlags s).stimulus = s.stimulus := rfl

/-! ### setInputs -/

@[simp] theorem setInputs_cfg (s : State) (p : Inputs) (r : List Inputs) :
    (setInputs s p r).cfg = s.cfg := rfl
@[simp] theorem setInputs_mem (s : State) (p : Inputs) (r : List Inputs) :
    (setInputs s p r).mem = s.mem := rfl
@[simp] theorem setInputs_head (s : State) (p : Inputs) (r : List Inputs) :
    (setInputs s p r).head = s.head := rfl
@[simp] theorem setInputs_tail (s : State) (p : Inputs) (r : List Inputs) :
    (setInputs s p r).tail = s.tail := rfl
@[simp] theorem setInputs_count (s : State) (p : Inputs) (r : List Inputs) :
    (setInputs s p r).count = s.count := rfl
@[simp] theorem setInputs_pins (s : State) (p : Inputs) (r : List Inputs) :
    (setInputs s p r).pins = p := rfl
@[simp] theorem setInputs_out (s : State) (p : Inputs) (r : List Inputs) :
    (setInputs s p r).out = s.out := rfl
@[simp] theorem setInputs_stimulus (s : State) (p : Inputs) (r : List Inputs) :
    (setInputs s p r).stimulus = r := rfl

/-! ### presentInputs -/

@[simp] theorem presentInputs_cfg (s : State) (p : Inputs) : (presentInputs s p).cfg = s.cfg := rfl
@[simp] theorem presentInputs_mem (s : State) (p : Inputs) : (presentInputs s p).mem = s.mem := rfl
@[simp] theorem presentInputs_head (s : State) (p : Inputs) : (presentInputs s p).head = s.head := rfl
@[simp] theorem presentInputs_tail (s : State) (p : Inputs) : (presentInputs s p).tail = s.tail := rfl
@[simp] theorem presentInputs_count (s : State) (p : Inputs) :
    (presentInputs s p).count = s.count := rfl
@[simp] theorem presentInputs_pins (s : State) (p : Inputs) : (presentInputs s p).pins = s.pins := rfl
@[simp] theorem presentInputs_out (s : State) (p : Inputs) : (presentInputs s p).out = s.out := rfl
@[simp] theorem presentInputs_stimulus (s : State) (p : Inputs) :
    (presentInputs s p).stimulus = p :: s.stimulus := rfl

/-! ### resetState -/

@[simp] theorem resetState_cfg (s : State) : (resetState s).cfg = s.cfg := rfl
@[simp] theorem resetState_mem (s : State) : (resetState s).mem = s.mem := rfl
@[simp] theorem resetState_head (s : State) : (resetState s).head = 0 := rfl
@[simp] theorem resetState_tail (s : State) : (resetState s).tail = 0 := rfl
@[simp] theorem resetState_count (s : State) : (resetState s).count = 0 := rfl
@[simp] theorem resetState_pins (s : State) : (resetState s).pins = s.pins := rfl
@[simp] theorem resetState_out (s : State) : (resetState s).out = s.out := rfl
@[simp] theorem resetState_stimulus (s : State) : (resetState s).stimulus = s.stimulus := rfl

/-! ### driveSwap16 -/

@[simp] theorem driveSwap16_cfg (s : State) (v : BitVec 16) : (driveSwap16 s v).cfg = s.cfg := rfl
@[simp] theorem driveSwap16_mem (s : State) (v : BitVec 16) : (driveSwap16 s v).mem = s.mem := rfl
@[simp] theorem driveSwap16_head (s : State) (v : BitVec 16) :
    (driveSwap16 s v).head = s.head := rfl
@[simp] theorem driveSwap16_tail (s : State) (v : BitVec 16) :
    (driveSwap16 s v).tail = s.tail := rfl
@[simp] theorem driveSwap16_count (s : State) (v : BitVec 16) :
    (driveSwap16 s v).count = s.count := rfl
@[simp] theorem driveSwap16_pins (s : State) (v : BitVec 16) :
    (driveSwap16 s v).pins = { s.pins with sw16In := v } := rfl
@[simp] theorem driveSwap16_out (s : State) (v : BitVec 16) :
    (driveSwap16 s v).out = { s.out with sw16Out := swap16 v } := rfl
@[simp] theorem driveSwap16_stimulus (s : State) (v : BitVec 16) :
    (driveSwap16 s v).stimulus = s.stimulus := rfl

/-! ### driveSwap32 -/

@[simp] theorem driveSwap32_cfg (s : State) (v : BitVec 32) : (driveSwap32 s v).cfg = s.cfg := rfl
@[simp] theorem driveSwap32_mem (s : State) (v : BitVec 32) : (driveSwap32 s v).mem = s.mem := rfl
@[simp] theorem driveSwap32_head (s : State) (v : BitVec 32) :
    (driveSwap32 s v).head = s.head := rfl
@[simp] theorem driveSwap32_tail (s : State) (v : BitVec 32) :
    (driveSwap32 s v).tail = s.tail := rfl
@[simp] theorem driveSwap32_count (s : State) (v : BitVec 32) :
    (driveSwap32 s v).count = s.count := rfl
@[simp] theorem driveSwap32_pins (s : State) (v : BitVec 32) :
    (driveSwap32 s v).pins = { s.pins with sw32In := v } := rfl
@[simp] theorem driveSwap32_out (s : State) (v : BitVec 32) :
    (driveSwap32 s v).out = { s.out with sw32Out := swap32 v } := rfl
@[simp] theorem driveSwap32_stimulus (s : State) (v : BitVec 32) :
    (driveSwap32 s v).stimulus = s.stimulus := rfl

end Sys2Proof.Machine
end

