-- ==== Sys2Proof/Laws/Memory.lean ====
section
/-! SUPPORT. The laws of the storage: reading after a write, and the canonical form. -/

namespace Sys2Proof.Machine

@[simp] theorem slotLookup_nil (i : Nat) : slotLookup [] i = none := rfl

theorem slotLookup_cons (j : Nat) (w : Data) (m : Memory) (i : Nat) :
    slotLookup ((j, w) :: m) i = if j = i then some w else slotLookup m i := rfl

/-- A slot below every listed index is unlisted. -/
theorem slotLookup_eq_none_of_lt {m : Memory} {i : Nat} (h : ∀ c ∈ m, i < c.1) :
    slotLookup m i = none := by
  induction m with
  | nil => rfl
  | cons c m ih =>
    obtain ⟨j, w⟩ := c
    have hj : i < j := h (j, w) List.mem_cons_self
    rw [slotLookup_cons, if_neg (by omega)]
    exact ih fun d hd => h d (List.mem_cons_of_mem _ hd)

/-- Reading after a write: the written slot gives the value, every other slot reads as before. -/
theorem slotLookup_slotInsert (m : Memory) (i j : Nat) (v : Data) :
    slotLookup (slotInsert m i v) j = if j = i then some v else slotLookup m j := by
  induction m with
  | nil => simp only [slotInsert, slotLookup_cons, slotLookup_nil, eq_comm]
  | cons c m ih =>
    obtain ⟨k, w⟩ := c
    simp only [slotInsert]
    split_ifs <;> simp only [slotLookup_cons, ih] <;> split_ifs <;> first | rfl | omega

/-- What a write lists: the written cell, or a cell that was there. -/
theorem mem_slotInsert {m : Memory} {i : Nat} {v : Data} {c : Nat × Data}
    (h : c ∈ slotInsert m i v) : c = (i, v) ∨ c ∈ m := by
  induction m with
  | nil => simpa [slotInsert] using h
  | cons d m ih =>
    obtain ⟨k, w⟩ := d
    simp only [slotInsert] at h
    split_ifs at h
    · simpa using h
    · rcases List.mem_cons.1 h with h | h
      · exact .inl h
      · exact .inr (List.mem_cons_of_mem _ h)
    · rcases List.mem_cons.1 h with h | h
      · exact .inr (h ▸ List.mem_cons_self)
      · exact (ih h).imp_right (List.mem_cons_of_mem _)

/-- A write keeps the canonical form. -/
theorem slotInsert_wf {m : Memory} (h : Memory.wf m) (i : Nat) (v : Data) :
    Memory.wf (slotInsert m i v) := by
  induction m with
  | nil => simp [slotInsert]
  | cons c m ih =>
    obtain ⟨k, w⟩ := c
    obtain ⟨hk, hm⟩ := List.pairwise_cons.1 h
    simp only [slotInsert]
    split_ifs with h1 h2
    · refine List.pairwise_cons.2 ⟨fun d hd => ?_, h⟩
      rcases List.mem_cons.1 hd with rfl | hd
      · exact h1
      · exact lt_trans h1 (hk d hd)
    · exact List.pairwise_cons.2 ⟨fun d hd => h2 ▸ hk d hd, hm⟩
    · refine List.pairwise_cons.2 ⟨fun d hd => ?_, ih hm⟩
      rcases mem_slotInsert hd with rfl | hd
      · show k < i
        omega
      · exact hk d hd

/-- The storage after reset is in canonical form. -/
theorem reset_mem_wf : State.reset.mem.wf := List.Pairwise.nil

/-- `MemWrite` keeps the canonical form. -/
theorem memWrite_wf {s t : State} {i : Nat} {v : Data} (h : s.mem.wf)
    (hw : memWrite s i v = .ok t) : t.mem.wf := by
  unfold memWrite at hw
  split_ifs at hw
  cases hw
  exact slotInsert_wf h i v

end Sys2Proof.Machine
end

