-- ==== Sys2Proof/Laws/Ops.lean ====
section
/-! SUPPORT. One lemma per shared operation that says everything it can do. -/

namespace Sys2Proof

/-- `dataLow` keeps the low `W` bits. -/
theorem dataLow_toNat (W : SlotWidth) (v : Data) : (dataLow W v).toNat = v.toNat % 2 ^ W.bits := by
  have hW : W.bits ≤ 32 := by cases W <;> decide
  have hlt : v.toNat % 2 ^ W.bits < 2 ^ 32 :=
    lt_of_lt_of_le (Nat.mod_lt _ (Nat.two_pow_pos _)) (Nat.pow_le_pow_right (by decide) hW)
  simp only [dataLow, BitVec.toNat_setWidth]
  exact Nat.mod_eq_of_lt hlt

/-- A datum on `W` wires is below `2^W`. -/
theorem dataLow_lt (W : SlotWidth) (v : Data) : (dataLow W v).toNat < 2 ^ W.bits := by
  rw [dataLow_toNat]
  exact Nat.mod_lt _ (Nat.two_pow_pos _)

/-- A `W`-bit value is carried whole. -/
theorem dataLow_of_lt {W : SlotWidth} {v : Data} (h : v.toNat < 2 ^ W.bits) : dataLow W v = v :=
  BitVec.eq_of_toNat_eq (by rw [dataLow_toNat, Nat.mod_eq_of_lt h])

end Sys2Proof

namespace Sys2Proof.Machine

/-- A cursor step stays below the depth. -/
theorem advance_lt {N : Nat} (h : 0 < N) (c : Nat) : advance N c < N := Nat.mod_lt _ h

/-- A slot's value has `W` bits. -/
theorem slotValue_lt (s : State) (i : Nat) : (slotValue s i).toNat < 2 ^ s.cfg.width.bits :=
  dataLow_lt _ _

/-- `MemRead` answers the slot's value exactly for the slots that exist. -/
theorem memRead_eq_ok {s : State} {i : Nat} {v : Data} :
    memRead s i = .ok v ↔ i < s.cfg.depth ∧ v = slotValue s i := by
  unfold memRead
  split_ifs with h <;> simp [h, eq_comm]

/-- `MemWrite` changes one slot, exactly for the slots that exist. -/
theorem memWrite_eq_ok {s t : State} {i : Nat} {v : Data} :
    memWrite s i v = .ok t ↔ i < s.cfg.depth ∧ t = setMem s (slotInsert s.mem i v) := by
  unfold memWrite
  split_ifs with h <;> simp [h, eq_comm]

@[simp] theorem returnOk_eq (s : State) (d : Data) : returnOk s d = .next (respond s .ok d) := rfl

@[simp] theorem raise_eq (e : FifoException) (s : State) :
    raise e s = .next (respond s (exceptionStatus e) 0) := rfl

@[simp] theorem andThen_next (s : State) (f : State → Result) : andThen (.next s) f = f s := rfl

/-- What `andThen` can answer: the second operation ran from a next state of the first. -/
theorem andThen_eq_next {r : Result} {f : State → Result} {t : State} :
    andThen r f = .next t ↔ ∃ s, r = .next s ∧ f s = .next t := by
  cases r <;> simp [andThen]

/-- What storing an element answers. -/
theorem storeElement_eq (s : State) (v : Data) (h t c : Nat) :
    storeElement s v h t c =
      if storeAddress s < s.cfg.depth then
        .next (respond (setCursors (setMem s (slotInsert s.mem (storeAddress s) v)) h t c) .ok 0)
      else .fault .noSuchSlot := by
  unfold storeElement memWrite
  split_ifs <;> rfl

/-- What `ADD` answers, branch by branch. -/
theorem execAdd_eq (v : Data) (s : State) :
    execAdd v s =
      if s.count < s.cfg.depth then
        storeElement s (addOperand s v) (advance s.cfg.depth s.head) s.tail (s.count + 1)
      else if s.cfg.policy = .overwrite then
        storeElement s (addOperand s v) (advance s.cfg.depth s.head) (advance s.cfg.depth s.tail)
          s.count
      else .next (respond s .overflow 0) := by
  unfold execAdd
  cases hp : s.cfg.policy <;> simp [exceptionStatus]

/-- What `GET` answers, branch by branch. -/
theorem execGet_eq (s : State) :
    execGet s =
      if s.count = 0 then .next (respond s .underflow 0)
      else if loadAddress s < s.cfg.depth then
        .next (respond (setCursors s s.head (advance s.cfg.depth s.tail) (s.count - 1)) .ok
          (slotValue s (loadAddress s)))
      else .fault .noSuchSlot := by
  unfold execGet memRead
  split_ifs <;> rfl

/-- The state a cycle hands to its sync_fifo half: inputs on the pins, flags shown, swaps evaluated. -/
def cyclePorts (s : State) : State :=
  driveSwap32 (driveSwap16 (beginCycle s) (cycleInputs s).sw16In) (cycleInputs s).sw32In

/-- A step is the sync_fifo half of the cycle, run from the state whose ports are set up. -/
theorem step_eq (s : State) : step s = fifoCycle (cyclePorts s) := rfl

@[simp] theorem cyclePorts_cfg (s : State) : (cyclePorts s).cfg = s.cfg := rfl
@[simp] theorem cyclePorts_mem (s : State) : (cyclePorts s).mem = s.mem := rfl
@[simp] theorem cyclePorts_head (s : State) : (cyclePorts s).head = s.head := rfl
@[simp] theorem cyclePorts_tail (s : State) : (cyclePorts s).tail = s.tail := rfl
@[simp] theorem cyclePorts_count (s : State) : (cyclePorts s).count = s.count := rfl
@[simp] theorem cyclePorts_pins (s : State) : (cyclePorts s).pins = cycleInputs s := rfl
@[simp] theorem cyclePorts_stimulus (s : State) : (cyclePorts s).stimulus = s.stimulus.tail := rfl
@[simp] theorem cyclePorts_out (s : State) : (cyclePorts s).out =
    { s.out with
      empty := emptyFlag s
      full := fullFlag s
      sw16Out := swap16 (cycleInputs s).sw16In
      sw32Out := swap32 (cycleInputs s).sw32In } := rfl

/-- The three branches of a cycle (R130). -/
theorem step_cases (s : State) :
    ((cycleInputs s).rst = true ∧ step s = resetCycle (cyclePorts s)) ∨
    ((cycleInputs s).rst = false ∧ (cycleInputs s).cmdValid = false ∧
      step s = idleCycle (cyclePorts s)) ∨
    ((cycleInputs s).rst = false ∧ (cycleInputs s).cmdValid = true ∧
      step s = exec (presentedCommand (cyclePorts s)) (cyclePorts s)) := by
  rw [step_eq, fifoCycle, cyclePorts_pins]
  cases (cycleInputs s).rst <;> cases (cycleInputs s).cmdValid <;> simp

end Sys2Proof.Machine
end

