-- ==== Sys2Proof/Laws/Decode.lean ====
section
/-! SUPPORT. The fields of a command word, and what the decoder answers. -/

namespace Sys2Proof

/-- The command word as a number: the opcode above the `W` data bits (R61). -/
theorem commandWord_toNat (W : SlotWidth) (op : BitVec 3) (d : Data) :
    (commandWord W op d).toNat = op.toNat * 2 ^ W.bits + d.toNat % 2 ^ W.bits := by
  have hW : 3 + W.bits ≤ 35 := by cases W <;> decide
  have hop : op.toNat * 2 ^ W.bits < 2 ^ 35 := by
    have h : op.toNat * 2 ^ W.bits < 2 ^ (3 + W.bits) := by
      rw [pow_add]
      exact Nat.mul_lt_mul_of_pos_right op.isLt (Nat.two_pow_pos _)
    exact lt_of_lt_of_le h (Nat.pow_le_pow_right (by decide) hW)
  have hd : d.toNat % 2 ^ W.bits < 2 ^ W.bits := Nat.mod_lt _ (Nat.two_pow_pos _)
  have hd35 : d.toNat % 2 ^ W.bits < 2 ^ 35 :=
    lt_of_lt_of_le hd (Nat.pow_le_pow_right (by decide) (by omega))
  have hop35 : op.toNat % 2 ^ 35 = op.toNat :=
    Nat.mod_eq_of_lt (lt_of_lt_of_le op.isLt (by decide))
  simp only [commandWord, BitVec.toNat_or, BitVec.toNat_shiftLeft, BitVec.toNat_setWidth,
    Nat.shiftLeft_eq, dataLow_toNat, hop35, Nat.mod_eq_of_lt hop, Nat.mod_eq_of_lt hd35]
  rw [Nat.mul_comm, Nat.two_pow_add_eq_or_of_lt hd]

/-- The `data` field keeps the low `W` bits. -/
theorem dataField_toNat (W : SlotWidth) (w : BitVec 35) :
    (dataField W w).toNat = w.toNat % 2 ^ W.bits := by
  have hW : W.bits ≤ 32 := by cases W <;> decide
  simp only [dataField, BitVec.toNat_setWidth]
  exact Nat.mod_eq_of_lt (lt_of_lt_of_le (Nat.mod_lt _ (Nat.two_pow_pos _))
    (Nat.pow_le_pow_right (by decide) hW))

/-- The `op` field of a command word is its opcode. -/
@[simp] theorem opField_commandWord (W : SlotWidth) (op : BitVec 3) (d : Data) :
    opField W (commandWord W op d) = op := by
  have hd : d.toNat % 2 ^ W.bits < 2 ^ W.bits := Nat.mod_lt _ (Nat.two_pow_pos _)
  apply BitVec.eq_of_toNat_eq
  simp only [opField, BitVec.toNat_setWidth, BitVec.toNat_ushiftRight, commandWord_toNat,
    Nat.shiftRight_eq_div_pow]
  rw [Nat.mul_comm, Nat.mul_add_div (Nat.two_pow_pos _), Nat.div_eq_of_lt hd, Nat.add_zero,
    Nat.mod_eq_of_lt op.isLt]

/-- The `data` field of a command word is its datum's `W` wires. -/
@[simp] theorem dataField_commandWord (W : SlotWidth) (op : BitVec 3) (d : Data) :
    dataField W (commandWord W op d) = dataLow W d :=
  BitVec.eq_of_toNat_eq (by
    rw [dataField_toNat, commandWord_toNat, dataLow_toNat, Nat.mul_comm, Nat.mul_add_mod, Nat.mod_mod])

/-- There are eight opcodes. -/
theorem opcode_cases (op : BitVec 3) :
    op = 0 ∨ op = 1 ∨ op = 2 ∨ op = 3 ∨ op = 4 ∨ op = 5 ∨ op = 6 ∨ op = 7 := by
  revert op
  decide

/-- What the command port carries is a sync_fifo command. -/
theorem decodeCommand_isCommand (op : BitVec 3) (d : Data) : (decodeCommand op d).isCommand = true := by
  rcases opcode_cases op with h | h | h | h | h | h | h | h <;> rw [h] <;> rfl

end Sys2Proof
end

