-- ==== Sys2Proof/Laws/Contents.lean ====
section
/-! SUPPORT. The window and the contents, and what every meaning leaves alone. -/

namespace Sys2Proof.Machine

@[simp] theorem contents_length (s : State) : (contents s).length = s.count := by simp [contents]

/-- The contents depend on the parameters, the storage and the registers alone. -/
theorem contents_congr {s t : State} (hc : t.cfg = s.cfg) (h : FifoKept s t) :
    contents t = contents s := by
  simp only [contents, slotValue, windowSlot, hc, h.mem, h.tail, h.count]

/-- Two places of the ring less than `N` apart are two slots. -/
theorem ring_slot_ne {N a k l : Nat} (h : k < l) (hl : l < k + N) : (a + k) % N ≠ (a + l) % N := by
  intro e
  have hz : (a + l - (a + k)) % N = 0 := Nat.sub_mod_eq_zero_of_mod_eq e.symm
  rw [show a + l - (a + k) = l - k by omega, Nat.mod_eq_of_lt (by omega)] at hz
  omega

/-- What every meaning leaves alone: the parameters, the coming inputs and the flag ports; and a
sync_fifo command leaves the swap ports alone too. -/
theorem exec_surround {i : Instr} {s t : State} (h : exec i s = .next t) :
    t.cfg = s.cfg ∧ t.stimulus = s.stimulus ∧ t.out.empty = s.out.empty ∧ t.out.full = s.out.full ∧
      (i.isCommand = true → SurroundKept s t) := by
  cases i <;> simp only [exec] at h
  case add v =>
    rw [execAdd_eq, storeElement_eq, storeElement_eq] at h
    split_ifs at h <;> cases h <;> exact ⟨rfl, rfl, rfl, rfl, fun _ => ⟨rfl, rfl, rfl, rfl, rfl, rfl, rfl⟩⟩
  case get =>
    rw [execGet_eq] at h
    split_ifs at h <;> cases h <;> exact ⟨rfl, rfl, rfl, rfl, fun _ => ⟨rfl, rfl, rfl, rfl, rfl, rfl, rfl⟩⟩
  case swap16 v => cases h; exact ⟨rfl, rfl, rfl, rfl, fun hi => nomatch hi⟩
  case swap32 v => cases h; exact ⟨rfl, rfl, rfl, rfl, fun hi => nomatch hi⟩
  all_goals cases h; exact ⟨rfl, rfl, rfl, rfl, fun _ => ⟨rfl, rfl, rfl, rfl, rfl, rfl, rfl⟩⟩

end Sys2Proof.Machine
end

