-- ==== Sys2Proof/Laws/Listing.lean ====
section
/-! SUPPORT. What a line and a listing can do (30_encoding.md R68, R69). -/

namespace Sys2Proof.Machine

@[simp] theorem runAll_nil {α : Type} (f : α → State → Result) (s : State) :
    runAll f [] s = .next s := rfl

/-- What a run of a non-empty list can answer: its head ran, and the rest ran from there. -/
theorem runAll_cons_eq_next {α : Type} {f : α → State → Result} {a : α} {as : List α} {s t : State} :
    runAll f (a :: as) s = .next t ↔ ∃ u, f a s = .next u ∧ runAll f as u = .next t :=
  andThen_eq_next

/-- A cycle with inputs `p` is the clocked step with `p` next in line. -/
theorem runCycle_eq_step (p : Inputs) (s : State) : runCycle p s = step (presentInputs s p) := rfl

@[simp] theorem cycleInputs_presentInputs (s : State) (p : Inputs) :
    cycleInputs (presentInputs s p) = p := rfl

/-- A line that takes a cycle is that cycle. -/
theorem runLine_of_takesCycle {l : Line} (h : l.takesCycle = true) (s : State) :
    runLine l s = runCycle (lineInputs s.cfg.width s.pins l) s := by
  cases l with
  | instr i => exact if_pos h
  | nop => rfl
  | reset => rfl

/-- A line that takes none is a swap instruction, evaluated on the spot. -/
theorem runLine_of_not_takesCycle {l : Line} (h : l.takesCycle = false) (s : State) :
    ∃ i, l = .instr i ∧ i.isCommand = false ∧ runLine l s = exec i s := by
  cases l with
  | instr i => exact ⟨i, rfl, h, if_neg (by rw [show i.isCommand = false from h]; decide)⟩
  | nop => cases h
  | reset => cases h

end Sys2Proof.Machine
end

