-- ==== Sys2Proof/Laws/PerInstr.lean ====
section
/-! SUPPORT. Facts proved for every instruction, one lemma a constructor. -/

namespace Sys2Proof.Laws

/-- A port word has no bit beyond the wires of its port: `3 + W` for the command word (R61). -/
def fitsPort (W : SlotWidth) : PortWord → Prop
  | .command w => w.toNat < 2 ^ (3 + W.bits)
  | .swap16 _ => True
  | .swap32 _ => True

/-- The words the encoder writes fit the command port (R61). -/
theorem commandWord_fits (W : SlotWidth) (op : BitVec 3) (d : Data) :
    (commandWord W op d).toNat < 2 ^ (3 + W.bits) := by
  have hW : 3 + W.bits ≤ 35 := by cases W <;> decide
  have hd : (dataLow W d).toNat < 2 ^ (3 + W.bits) :=
    lt_of_lt_of_le (dataLow_lt W d) (Nat.pow_le_pow_right (by decide) (by omega))
  have hop : op.toNat * 2 ^ W.bits < 2 ^ (3 + W.bits) := by
    rw [pow_add]
    exact Nat.mul_lt_mul_of_pos_right op.isLt (Nat.two_pow_pos _)
  have h35 : ∀ n, n < 2 ^ (3 + W.bits) → n % 2 ^ 35 = n := fun n hn =>
    Nat.mod_eq_of_lt (lt_of_lt_of_le hn (Nat.pow_le_pow_right (by decide) hW))
  have hop35 : op.toNat % 2 ^ 35 = op.toNat :=
    Nat.mod_eq_of_lt (lt_of_lt_of_le op.isLt (by decide))
  simp only [commandWord, BitVec.toNat_or, BitVec.toNat_shiftLeft, BitVec.toNat_setWidth,
    Nat.shiftLeft_eq, hop35, h35 _ hd, h35 _ hop]
  exact Nat.or_lt_two_pow hop hd

/-- The canonical word of an instruction fits its port, for every slot width. -/
def EncodedFits.Statement (i : Instr) : Prop := ∀ W, fitsPort W (encode W i)

theorem EncodedFits.init : EncodedFits.Statement .init := fun W => commandWord_fits W 0 0
theorem EncodedFits.add (v : Data) : EncodedFits.Statement (.add v) := fun W => commandWord_fits W 1 v
theorem EncodedFits.get : EncodedFits.Statement .get := fun W => commandWord_fits W 2 0
theorem EncodedFits.empty : EncodedFits.Statement .empty := fun W => commandWord_fits W 3 0
theorem EncodedFits.full : EncodedFits.Statement .full := fun W => commandWord_fits W 4 0
theorem EncodedFits.clear : EncodedFits.Statement .clear := fun W => commandWord_fits W 5 0
theorem EncodedFits.rsvd6 : EncodedFits.Statement .rsvd6 := fun W => commandWord_fits W 6 0
theorem EncodedFits.rsvd7 : EncodedFits.Statement .rsvd7 := fun W => commandWord_fits W 7 0
theorem EncodedFits.swap16 (v : BitVec 16) : EncodedFits.Statement (.swap16 v) := fun _ => trivial
theorem EncodedFits.swap32 (v : BitVec 32) : EncodedFits.Statement (.swap32 v) := fun _ => trivial

end Sys2Proof.Laws
end

