-- ==== Sys2Proof/Tests/Slice0.lean ====
section
/-! SUPPORT. Tests: words and vectors of 30_encoding.md and 95_test_vectors.md, and witnesses of the statements' hypotheses. -/

namespace Sys2Proof.Tests

open Sys2Proof.Machine

/-! ## Helpers -/

/-- A block of depth `n + 1`, width `W` and policy `p`. -/
def block (n : Nat) (W : SlotWidth) (p : OvfPolicy) : Config := ⟨n + 1, Nat.succ_pos n, W, p⟩

/-- The reference instance but for its policy (`N = 8`, `W = 8`). -/
def block8 (p : OvfPolicy) : Config := block 7 .w8 p

/-- The state `(h, t, c)` of a block with the given written slots. -/
def at' (c : Config) (m : Memory) (h t n : Nat) : State :=
  { State.resetOf c with mem := m, head := h, tail := t, count := n }

/-- Eight written slots, `10` to `80`, as in program P2. -/
def eight : Memory := [(0, 10), (1, 20), (2, 30), (3, 40), (4, 50), (5, 60), (6, 70), (7, 80)]

/-- The next state, if the outcome is one. -/
def nextOf (r : Result) : Option State :=
  match r with
  | .next s => some s
  | .fault _ => none
  | .refused _ => none

/-- Registers and response after an outcome: `(head, tail, count, status, data)`. -/
def brief (r : Result) : Option (Nat × Nat × Nat × BitVec 2 × Data) :=
  (nextOf r).map fun s => (s.head, s.tail, s.count, s.out.rspStatus, s.out.rspData)

/-- A cycle that presents an opcode and a datum. -/
def cmd (op : BitVec 3) (d : Data) : Inputs :=
  { Inputs.quiet with cmdValid := true, cmdOp := op, cmdData := d }

/-! ## Well-formedness: the one check, and a term it refuses -/

theorem test_wellFormed_add_256_refused_at_w8 : (Instr.add 256).wellFormed .w8 = false := by decide
theorem test_wellFormed_add_255_accepted_at_w8 : (Instr.add 255).wellFormed .w8 = true := by decide

/-! ## Decoding, words written out bit by bit (R61, R62; vectors F1 to F32, G8, G10) -/

theorem test_decode_init : decode .w8 (.command 0b00000000000) = .ok .init := by decide
theorem test_decode_add_55 : decode .w8 (.command 0b00100110111) = .ok (.add 55) := by decide
theorem test_decode_get_ignores_data : decode .w8 (.command 0b01010101011) = .ok .get := by decide
theorem test_decode_empty : decode .w8 (.command 0b01100000000) = .ok .empty := by decide
theorem test_decode_full : decode .w8 (.command 0b10000000000) = .ok .full := by decide
theorem test_decode_clear : decode .w8 (.command 0b10100000001) = .ok .clear := by decide
theorem test_decode_rsvd6 : decode .w8 (.command 0b11000000000) = .ok .rsvd6 := by decide
theorem test_decode_rsvd7 : decode .w8 (.command 0b11111111111) = .ok .rsvd7 := by decide
theorem test_decode_swap16 :
    decode .w8 (.swap16 0b0001001000110100) = .ok (.swap16 0x1234) := by decide
theorem test_decode_swap32 :
    decode .w8 (.swap32 0b00010010001101000101011001111000) = .ok (.swap32 0x12345678) := by decide
theorem test_decode_add_w16 : decode .w16 (.command 0x11234) = .ok (.add 0x1234) := by decide
theorem test_decode_add_w32 : decode .w32 (.command 0x1DEADBEEF) = .ok (.add 0xDEADBEEF) := by decide
theorem test_decode_too_wide : decode .w8 (.command 0x800) = .error .wordTooWide := by decide
theorem test_encode_add_255 : encode .w8 (.add 255) = .command 0x1FF := by decide
theorem test_encode_empty_w32 : encode .w32 .empty = .command 0x300000000 := by decide
theorem test_table_words :
    [0, 1, 2, 3, 4, 5, 6, 7].map (decodeTableWord 8) =
      [some .init, some (.add 0), some .get, some .empty, some .full, some .clear, some .rsvd6,
        some .rsvd7] := by decide
theorem test_table_swap_words :
    (decodeTableWord 16 0x1234, decodeTableWord 32 0x12345678) =
      (some (.swap16 0x1234), some (.swap32 0x12345678)) := by decide

/-! ## One step of each instruction (vectors F, G, X, Y of 95_test_vectors.md) -/

/-- F1. -/
theorem test_init : brief (exec .init (at' (block8 .overwrite) eight 5 2 3)) = some (0, 0, 0, 0, 0) := by
  decide
/-- G5: the cursor wraps at `N = 3`, not at `2^AW = 4`. -/
theorem test_add_wraps_at_depth :
    brief (exec (.add 3) (at' (block 2 .w8 .reject) [(1, 2)] 2 1 1)) = some (0, 1, 2, 0, 0) ∧
    (nextOf (exec (.add 3) (at' (block 2 .w8 .reject) [(1, 2)] 2 1 1))).map (·.mem) =
      some [(1, 2), (2, 3)] := by decide
/-- F9 and F10: the full buffer under each policy. -/
theorem test_add_full :
    brief (exec (.add 99) (at' (block8 .overwrite) eight 3 3 8)) = some (4, 4, 8, 0, 0) ∧
    ((nextOf (exec (.add 99) (at' (block8 .overwrite) eight 3 3 8))).map (slotLookup ·.mem 3)) =
      some (some 99) ∧
    brief (exec (.add 99) (at' (block8 .reject) eight 3 3 8)) = some (3, 3, 8, 2, 0) ∧
    ((nextOf (exec (.add 99) (at' (block8 .reject) eight 3 3 8))).map (slotLookup ·.mem 3)) =
      some (some 40) := by decide
/-- F13: `tail` wraps from 7 to 0. -/
theorem test_get_wraps :
    brief (exec .get (at' (block8 .reject) eight 2 7 3)) = some (2, 0, 2, 0, 80) := by decide
/-- F16: on an empty buffer the stale slot is not read. -/
theorem test_get_underflow_hides_stale :
    brief (exec .get (at' (block8 .reject) [(6, 123)] 6 6 0)) = some (6, 6, 0, 1, 0) := by decide
/-- F19, F20. -/
theorem test_empty :
    brief (exec .empty (at' (block8 .reject) eight 6 6 0)) = some (6, 6, 0, 0, 1) ∧
    brief (exec .empty (at' (block8 .reject) eight 1 0 1)) = some (1, 0, 1, 0, 0) := by decide
/-- F23, F24. -/
theorem test_full :
    brief (exec .full (at' (block8 .reject) eight 2 3 7)) = some (2, 3, 7, 0, 0) ∧
    brief (exec .full (at' (block8 .reject) eight 3 3 8)) = some (3, 3, 8, 0, 1) := by decide
/-- F26: clearing an empty buffer still moves the cursors. -/
theorem test_clear : brief (exec .clear (at' (block8 .reject) eight 6 6 0)) = some (0, 0, 0, 0, 0) := by
  decide
/-- F28. -/
theorem test_rsvd6 : brief (exec .rsvd6 (at' (block8 .reject) [(0, 55)] 1 0 1)) = some (1, 0, 1, 3, 0) := by
  decide
/-- F29. -/
theorem test_rsvd7 : brief (exec .rsvd7 (at' (block8 .reject) eight 3 3 8)) = some (3, 3, 8, 3, 0) := by
  decide
/-- X3 (not 32: R104) and X12. -/
theorem test_swap16 : swap16 32 = 8192 ∧ swap16 0xFFFE = 0xFEFF := by decide
/-- Y4 and Y16. -/
theorem test_swap32 : swap32 32 = 536870912 ∧ swap32 0xDEADBEEF = 0xEFBEADDE := by decide
/-- X7 as an instruction. -/
theorem test_exec_swap16 :
    (nextOf (exec (.swap16 0x1234) State.reset)).map (·.out.sw16Out) = some 0x3412 := by decide
/-- Y13 as an instruction. -/
theorem test_exec_swap32 :
    (nextOf (exec (.swap32 0x12345678) State.reset)).map (·.out.sw32Out) = some 0x78563412 := by decide

/-! ## One clock cycle -/

/-- F34: reset beats the `ADD` presented with it; the flag ports still show the old state (R130). -/
theorem test_step_reset_beats_add :
    brief (step { at' (block8 .reject) eight 2 7 3 with
      stimulus := [{ cmd 1 9 with rst := true }] }) = some (0, 0, 0, 0, 0) ∧
    (nextOf (step { at' (block8 .reject) eight 2 7 3 with
        stimulus := [{ cmd 1 9 with rst := true }] })).map (fun t => (t.mem, t.out.empty)) =
      some (eight, false) := by decide
/-- F33: an idle cycle ignores the command ports. -/
theorem test_step_idle :
    brief (step { at' (block8 .reject) eight 2 7 3 with
      stimulus := [{ cmd 1 9 with cmdValid := false }] }) = some (2, 7, 3, 0, 0) := by decide
/-- A swap in the same cycle as a command (R53, R60). -/
theorem test_step_swaps_beside_get :
    (nextOf (step { at' (block8 .reject) [(0, 55)] 1 0 1 with
        stimulus := [{ cmd 2 0xAB with sw16In := 0x00FF, sw32In := 0x01020304 }] })).map
      (fun t => (response t, t.out.empty, t.out.sw16Out, t.out.sw32Out)) =
      some ((0, 55), false, 0xFF00, 0x04030201) := by decide
/-- A table word runs as the first instruction after reset. -/
theorem test_fetch_add : brief (step (State.reset.withFetchWord 8 1)) = some (1, 0, 1, 0, 0) := by decide
theorem test_fetch_get : brief (step (State.reset.withFetchWord 8 2)) = some (0, 0, 0, 1, 0) := by decide
theorem test_fetch_swap16 :
    (nextOf (step (State.reset.withFetchWord 16 0x1234))).map (·.out.sw16Out) = some 0x3412 := by decide

/-! ## The listing syntax (R68, R69) -/

theorem test_parse_add :
    parseLine .w8 ['A', 'D', 'D', ' ', '5', '5'] = some (.instr (.add 55)) := by decide
theorem test_parse_hex :
    parseLine .w8 ['S', 'W', 'A', 'P', '1', '6', ' ', '0', 'x', '1', 'A'] =
      some (.instr (.swap16 26)) := by decide
theorem test_parse_out_of_range :
    parseLine .w8 ['A', 'D', 'D', ' ', '2', '5', '6'] = none := by decide
theorem test_parse_reset : parseLine .w8 ['R', 'E', 'S', 'E', 'T'] = some .reset := by decide
/-- P4 lines 0 to 2, assembled. -/
theorem test_assemble :
    assemble .w8 Inputs.quiet [.reset, .instr .get, .nop] =
      [{ Inputs.quiet with rst := true }, cmd 2 0, { cmd 2 0 with cmdValid := false }] := by decide

/-- P5 lines 6, 6a, 7: two clock cycles; the swap operand stands on its port from its line on. -/
theorem test_assemble_swap_line_takes_no_cycle :
    assemble .w16 Inputs.quiet [.instr .get, .instr (.swap16 0xFFFF), .instr .empty] =
      [cmd 2 0, { cmd 3 0 with sw16In := 0xFFFF }] := by decide
/-- P5 lines 4 and 4a: after the swap line the registers and the response of line 4 still stand. -/
theorem test_listing_swap_line :
    brief (runListing [.instr .get, .instr (.swap16 0x0020)]
      (at' (block 3 .w16 .reject) [(0, 0x0020), (1, 0x1234), (2, 0xFFFF)] 3 0 3)) =
      some (3, 1, 2, 0, 0x0020) ∧
    (nextOf (runListing [.instr .get, .instr (.swap16 0x0020)]
      (at' (block 3 .w16 .reject) [(0, 0x0020), (1, 0x1234), (2, 0xFFFF)] 3 0 3))).map
        (·.out.sw16Out) = some 0x2000 := by decide

/-! ## Widths (R10) -/

theorem test_widths :
    ((block8 .reject).addrWidth, (block8 .reject).countWidth) = (3, 4) ∧
    ((block 0 .w8 .reject).addrWidth, (block 0 .w8 .reject).countWidth) = (1, 1) := by decide

/-! ## Witnesses: states that meet the hypotheses of the statements -/

/-- A state of the ring has the invariant, the checks being decidable. -/
theorem inv_of_checks {s : State} (h : s.count ≤ s.cfg.depth ∧ s.head < s.cfg.depth ∧
    s.tail < s.cfg.depth ∧ s.head = (s.tail + s.count) % s.cfg.depth ∧ s.mem.wf ∧
    (∀ c ∈ s.mem, c.1 < s.cfg.depth ∧ c.2.toNat < 2 ^ s.cfg.width.bits) ∧
    ∀ k, k < s.count → (slotLookup s.mem (windowSlot s k)).isSome = true) : BufferInv s :=
  ⟨⟨h.1, h.2.1, h.2.2.1⟩, h.2.2.2.1, h.2.2.2.2.1, h.2.2.2.2.2.1, h.2.2.2.2.2.2⟩

/-- Full, wrapped, `OVERWRITE`. -/
def fullOver : State := at' (block8 .overwrite) eight 3 3 8
/-- Full, wrapped, `REJECT`. -/
def fullReject : State := at' (block8 .reject) eight 3 3 8
/-- One short of full. -/
def almostFull : State := at' (block8 .reject) eight 2 3 7
/-- One element. -/
def oneHeld : State := at' (block8 .reject) [(0, 55)] 1 0 1
/-- Empty, cursors at 6, a stale slot. -/
def emptyStale : State := at' (block8 .reject) [(6, 123)] 6 6 0
/-- Depth 1, full. -/
def tinyFull : State := at' (block 0 .w8 .reject) [(0, 7)] 0 0 1

theorem witness_inv_fullOver : BufferInv fullOver := inv_of_checks (by decide)
theorem witness_inv_fullReject : BufferInv fullReject := inv_of_checks (by decide)
theorem witness_inv_almostFull : BufferInv almostFull := inv_of_checks (by decide)
theorem witness_inv_oneHeld : BufferInv oneHeld := inv_of_checks (by decide)
theorem witness_inv_emptyStale : BufferInv emptyStale := inv_of_checks (by decide)
theorem witness_inv_tinyFull : BufferInv tinyFull := inv_of_checks (by decide)

/-- AddAppendsEvictsOrRejects: each of its three clauses, the first at `count = 0` and `N - 1`. -/
theorem witness_AddAppendsEvictsOrRejects :
    (InRange emptyStale ∧ emptyStale.count = 0) ∧
    (InRange almostFull ∧ almostFull.count = almostFull.cfg.depth - 1) ∧
    (InRange fullOver ∧ ¬ fullOver.count < fullOver.cfg.depth ∧ fullOver.cfg.policy = .overwrite) ∧
    (InRange fullReject ∧ ¬ fullReject.count < fullReject.cfg.depth ∧
      fullReject.cfg.policy ≠ .overwrite) ∧
    (255 : Data).toNat < 2 ^ SlotWidth.w8.bits :=
  ⟨⟨witness_inv_emptyStale.toInRange, rfl⟩, ⟨witness_inv_almostFull.toInRange, rfl⟩,
    ⟨witness_inv_fullOver.toInRange, by decide, rfl⟩,
    ⟨witness_inv_fullReject.toInRange, by decide, by decide⟩, by decide⟩

/-- GetRemovesTheOldestOrUnderflows: empty, and the last element. -/
theorem witness_GetRemovesTheOldestOrUnderflows :
    (InRange emptyStale ∧ emptyStale.count = 0) ∧ (InRange oneHeld ∧ oneHeld.count = 1) :=
  ⟨⟨witness_inv_emptyStale.toInRange, rfl⟩, ⟨witness_inv_oneHeld.toInRange, rfl⟩⟩

/-- EmptyReportsTheFlag and FullReportsTheFlag: a cycle with the command, and a block of depth 1. -/
theorem witness_FlagCommands :
    (cycleInputs { oneHeld with stimulus := [cmd 3 0] }).cmdValid = true ∧
    (cycleInputs { oneHeld with stimulus := [cmd 3 0] }).rst = false ∧
    (cycleInputs { oneHeld with stimulus := [cmd 3 0] }).cmdOp = 3 ∧
    (cycleInputs { oneHeld with stimulus := [cmd 4 0] }).cmdValid = true ∧
    (cycleInputs { oneHeld with stimulus := [cmd 4 0] }).rst = false ∧
    (cycleInputs { oneHeld with stimulus := [cmd 4 0] }).cmdOp = 4 ∧
    InRange tinyFull ∧ tinyFull.cfg.depth = 1 ∧
    (nextOf (exec .empty tinyFull)).isSome = true ∧ (nextOf (exec .full tinyFull)).isSome = true :=
  ⟨rfl, rfl, rfl, rfl, rfl, rfl, witness_inv_tinyFull.toInRange, rfl, rfl, rfl⟩

/-- StepRunsTheDecodedCommand: a presented `ADD` decodes. -/
theorem witness_StepRunsTheDecodedCommand :
    (cycleInputs { oneHeld with stimulus := [cmd 1 9] }).rst = false ∧
    (cycleInputs { oneHeld with stimulus := [cmd 1 9] }).cmdValid = true ∧
    decode .w8 (.command (commandWord .w8 (cmd 1 9).cmdOp (cmd 1 9).cmdData)) = .ok (.add 9) := by
  decide

/-- EachCycleFollowsTheClockedStep and ResetLeavesTheSpecifiedState: reset, idle and command cycles. -/
theorem witness_EachCycleFollowsTheClockedStep :
    (cycleInputs { oneHeld with stimulus := [{ cmd 1 9 with rst := true }] }).rst = true ∧
    (cycleInputs oneHeld).rst = false ∧ (cycleInputs oneHeld).cmdValid = false ∧
    (cycleInputs { oneHeld with stimulus := [cmd 1 9] }).rst = false ∧
    (cycleInputs { oneHeld with stimulus := [cmd 1 9] }).cmdValid = true ∧
    (nextOf (step { oneHeld with stimulus := [{ cmd 1 9 with rst := true }] })).isSome = true ∧
    (nextOf (step { oneHeld with stimulus := [cmd 1 9] })).isSome = true := by decide

/-- DataBitsOfOtherCommandsAreIgnored and SwapOperandsDoNotReachTheFifo: a `GET` that answers. -/
theorem witness_DataBitsOfOtherCommandsAreIgnored :
    (cmd 2 0).rst = false ∧ (cmd 2 0).cmdValid = true ∧ (cmd 2 0).cmdOp ≠ 1 ∧
    ∃ t, step { oneHeld with stimulus := cmd 2 0 :: [] } = .next t :=
  ⟨rfl, rfl, by decide, _, rfl⟩

/-- IdleAndResetIgnoreTheCommandPorts: both clauses. -/
theorem witness_IdleAndResetIgnoreTheCommandPorts :
    ({ cmd 1 9 with rst := true } : Inputs).rst = true ∧ Inputs.quiet.cmdValid = false := by decide

/-- SwapOutputsDependOnTheirOperandAlone, ParametersNeverChange, EveryStepKeepsTheInvariant,
StorageKeepsItsCanonicalForm: a state with the invariant that steps. -/
theorem witness_EveryStepKeepsTheInvariant :
    BufferInv oneHeld ∧ oneHeld.mem.wf ∧ ∃ t, step oneHeld = .next t :=
  ⟨witness_inv_oneHeld, by decide, _, rfl⟩

/-- CommandsReadOnlyTheFifoState, ResponseDataFitsItsPort, CursorsAdvanceModuloTheDepth. -/
theorem witness_CommandsReadOnlyTheFifoState :
    (Instr.get).isCommand = true ∧ Instr.get ≠ .init ∧ Instr.get ≠ .clear ∧
    ∃ t, exec .get oneHeld = .next t := ⟨rfl, by decide, by decide, _, rfl⟩

/-- CursorsAdvanceModuloTheDepth: the last slot of a depth that is no power of two. -/
theorem witness_CursorsAdvanceModuloTheDepth : 2 < 3 ∧ advance 3 2 = 0 ∧ advance 1 0 = 0 := by decide

/-- AddIsSeenByGetInTheNextCycle. -/
theorem witness_AddIsSeenByGetInTheNextCycle :
    BufferInv { emptyStale with stimulus := [cmd 1 9, cmd 2 0] } ∧ emptyStale.count = 0 ∧
    (cmd 1 9).rst = false ∧ (cmd 1 9).cmdValid = true ∧ (cmd 1 9).cmdOp = 1 ∧
    (cmd 2 0).rst = false ∧ (cmd 2 0).cmdValid = true ∧ (cmd 2 0).cmdOp = 2 :=
  ⟨inv_of_checks (by decide), rfl, rfl, rfl, rfl, rfl, rfl, rfl⟩

/-- ResetInitAndClearAreOneStateChange: a state and its copy in a reset cycle. -/
theorem witness_ResetInitAndClearAreOneStateChange :
    FifoKept oneHeld { oneHeld with stimulus := [{ Inputs.quiet with rst := true }] } ∧
    (cycleInputs { oneHeld with stimulus := [{ Inputs.quiet with rst := true }] }).rst = true :=
  ⟨⟨rfl, rfl, rfl, rfl⟩, rfl⟩

/-- TheBlockNeverStops, TransitionTableOfTheAbstractStates, EachStatusHasItsExactCause: the three
abstract states, and both kinds of instruction. -/
theorem witness_TransitionTableOfTheAbstractStates :
    (InRange emptyStale ∧ level emptyStale = .empty) ∧ (InRange oneHeld ∧ level oneHeld = .part) ∧
    (InRange fullReject ∧ level fullReject = .full) ∧ (InRange tinyFull ∧ level tinyFull = .full) ∧
    (Instr.add 1).isCommand = true ∧ (Instr.swap16 1).isCommand = false :=
  ⟨⟨witness_inv_emptyStale.toInRange, rfl⟩, ⟨witness_inv_oneHeld.toInRange, rfl⟩,
    ⟨witness_inv_fullReject.toInRange, rfl⟩, ⟨witness_inv_tinyFull.toInRange, rfl⟩, rfl, rfl⟩

/-- ReachableRegistersAreInRange, ReachableCursorsAgreeWithCount, FlagsAreNeverBothSet: reachable
states, empty, partly filled, and of depth 1. -/
theorem witness_Reachable :
    Reachable { State.resetOf (block8 .reject) with stimulus := [cmd 1 9] } ∧
    (∃ t, Reachable t ∧ emptyFlag t = false ∧ fullFlag t = false) ∧
    (∃ t, Reachable t ∧ t.cfg.depth = 1) :=
  ⟨.reset _ _, ⟨_, .step _ _ (.reset (block8 .reject) [cmd 1 9]) rfl, rfl, rfl⟩,
    ⟨_, .reset (block 0 .w8 .reject) [], rfl⟩⟩

/-- ExceptionsChangeNoState and ExceptionsLeaveNothingBehind: each of the three exceptions. -/
theorem witness_ExceptionsChangeNoState :
    (Instr.get).isCommand = true ∧ (Instr.add 1).isCommand = true ∧ Instr.rsvd6.isCommand = true ∧
    (∃ t, exec .get emptyStale = .next t ∧ t.out.rspStatus ≠ 0) ∧
    (∃ t, exec (.add 1) fullReject = .next t ∧ t.out.rspStatus ≠ 0) ∧
    (∃ t, exec .rsvd6 oneHeld = .next t ∧ t.out.rspStatus ≠ 0) :=
  ⟨rfl, rfl, rfl, ⟨_, rfl, by decide⟩, ⟨_, rfl, by decide⟩, ⟨_, rfl, by decide⟩⟩

/-- RejectedAddLosesOnlyItsOperand, and AddOnFullThenDrainUnderEachPolicy under `REJECT`. -/
theorem witness_RejectedAddLosesOnlyItsOperand :
    BufferInv fullReject ∧ fullReject.count = fullReject.cfg.depth ∧ fullReject.cfg.policy = .reject :=
  ⟨witness_inv_fullReject, rfl, rfl⟩

/-- OverwriteKeepsTheNewestElements, and AddOnFullThenDrainUnderEachPolicy under `OVERWRITE`. -/
theorem witness_OverwriteKeepsTheNewestElements :
    BufferInv fullOver ∧ fullOver.count = fullOver.cfg.depth ∧ fullOver.cfg.policy = .overwrite :=
  ⟨witness_inv_fullOver, rfl, rfl⟩

/-- EachCommandActsAsOnAQueue and CommandStreamsRefineTheQueue: a full buffer, and commands for it. -/
theorem witness_CommandStreamsRefineTheQueue :
    BufferInv fullOver ∧ ∀ i ∈ [Instr.add 9, .get, .full], i.isCommand = true :=
  ⟨witness_inv_fullOver, by decide⟩

/-- StaleSlotsAreNeverObserved: two states whose stale slots differ. -/
theorem witness_StaleSlotsAreNeverObserved :
    BufferInv oneHeld ∧ BufferInv (at' (block8 .reject) [(0, 55), (5, 1)] 1 0 1) ∧
    SameWindow oneHeld (at' (block8 .reject) [(0, 55), (5, 1)] 1 0 1) :=
  ⟨witness_inv_oneHeld, inv_of_checks (by decide), ⟨rfl, rfl, rfl, rfl, rfl⟩⟩

/-- AddsFillAnEmptyBuffer and AddThenGetReturnsTheValue: an empty buffer whose cursors are not 0, and
lists of no, and of exactly `N`, values. -/
theorem witness_AddsFillAnEmptyBuffer :
    BufferInv emptyStale ∧ emptyStale.count = 0 ∧ ([] : List Data).length ≤ emptyStale.cfg.depth ∧
    [(1 : Data), 2, 3, 4, 5, 6, 7, 8].length = emptyStale.cfg.depth :=
  ⟨witness_inv_emptyStale, rfl, by decide, rfl⟩

/-- GetsReturnAddsInOrder: an empty buffer and a stream that evicts nothing. -/
theorem witness_GetsReturnAddsInOrder :
    BufferInv emptyStale ∧ emptyStale.count = 0 ∧ NoEviction [.add 9, .get] emptyStale ∧
    (∀ i ∈ [Instr.add 9, .get], i.isCommand = true ∧ i ≠ .init ∧ i ≠ .clear) ∧
    (execList [.add 9, .get] emptyStale).map (fun x => returnedValues [.add 9, .get] x.2) =
      some [9] := by
  have no_overwrite : ∀ i s, s.cfg.policy = .reject → ¬ evicts i s := by
    intro i s h e
    rw [e.2.2] at h
    cases h
  refine ⟨witness_inv_emptyStale, rfl, ⟨no_overwrite _ _ rfl, fun t ht => ?_⟩, by decide, by decide⟩
  cases ht
  exact ⟨no_overwrite _ _ rfl, fun _ _ => trivial⟩

/-- ResponsesAfterResetIgnoreTheStorage: two states of one block, the second outside the invariant. -/
theorem witness_ResponsesAfterResetIgnoreTheStorage :
    let p := { Inputs.quiet with rst := true }
    { oneHeld with stimulus := [p], mem := [(9, 1), (2, 7)], head := 99 }.cfg = oneHeld.cfg ∧
    (cycleInputs { oneHeld with stimulus := [p] }).rst = true ∧
    (cycleInputs { oneHeld with stimulus := [p], mem := [(9, 1), (2, 7)], head := 99 }).rst = true ∧
    ∀ i ∈ [Instr.add 9, .get], i.isCommand = true :=
  ⟨rfl, rfl, rfl, by decide⟩

/-- SwapLinesTakeNoClockCycle, ListingsClockOnlyTheirOtherLines, ParsedLinesCanBePresented: a command at
the end of its range, a listing with a swap line, a text. -/
theorem witness_Listings :
    (Instr.add 255).isCommand = true ∧ (Instr.add 255).wellFormed oneHeld.cfg.width = true ∧
    InRange oneHeld ∧ [Line.instr .get, .instr (.swap32 1)].filter Line.takesCycle = [.instr .get] ∧
    parseLine .w8 ['A', 'D', 'D', ' ', '2', '5', '5'] = some (.instr (.add 255)) :=
  ⟨rfl, rfl, witness_inv_oneHeld.toInRange, rfl, by decide⟩

/-- OnlyAMissingSlotFaults: both causes, in states no run reaches. -/
theorem witness_OnlyAMissingSlotFaults :
    exec (.add 1) (at' (block8 .overwrite) [] 8 0 0) = .fault .noSuchSlot ∧
    exec .get (at' (block8 .overwrite) [] 0 8 1) = .fault .noSuchSlot := ⟨rfl, rfl⟩

/-- DecodeAndEncodeAgree: a well-formed `ADD`; a word that encodes back and one that does not. -/
theorem witness_DecodeAndEncodeAgree :
    (Instr.add 255).wellFormed .w8 = true ∧ decode .w8 (.command 0x2AB) = .ok .get ∧
    dataField .w8 0x2AB ≠ 0 ∧ decode .w8 (.command 0x200) = .ok .get ∧ dataField .w8 0x200 = 0 := by
  decide

/-- DecoderRejectsOnlyWordsTooWide: the words at the edge. -/
theorem witness_DecoderRejectsOnlyWordsTooWide :
    (0x7FF : BitVec 35).toNat < 2 ^ (3 + SlotWidth.w8.bits) ∧
    2 ^ (3 + SlotWidth.w8.bits) ≤ (0x800 : BitVec 35).toNat := by decide

end Sys2Proof.Tests
end

section
/-! R10: the register widths are the base-2 logarithms of the depth. -/

namespace Sys2Proof.Machine

/-- R10, for `CW`: the width of a register that holds every count up to `N`. -/
theorem countWidth_le_iff (c : Config) (k : Nat) : c.countWidth ≤ k ↔ c.depth + 1 ≤ 2 ^ k :=
  Nat.log2_lt c.depth_pos.ne'

/-- R10, the floor of `AW`: a block of one or two slots has cursors of one bit. -/
theorem addrWidth_of_depth_le_two {c : Config} (h : c.depth ≤ 2) : c.addrWidth = 1 :=
  if_pos h

/-- R10, above the floor: `AW` is the width of a register that holds the last cursor, `N - 1`. -/
theorem addrWidth_le_iff_of_two_lt {c : Config} (h : 2 < c.depth) (k : Nat) :
    c.addrWidth ≤ k ↔ c.depth ≤ 2 ^ k := by
  have hlast : c.depth - 1 ≠ 0 := by omega
  calc c.addrWidth ≤ k
      ↔ Nat.log2 (c.depth - 1) < k := by rw [Config.addrWidth, if_neg h.not_ge]; exact Nat.succ_le_iff
    _ ↔ c.depth - 1 < 2 ^ k := Nat.log2_lt hlast
    _ ↔ c.depth ≤ 2 ^ k := by omega

/-- R10, for `AW`: the floor of one bit is felt at depth 1 and 2, the logarithm above. -/
theorem addrWidth_le_iff (c : Config) (k : Nat) :
    c.addrWidth ≤ k ↔ 1 ≤ k ∧ c.depth ≤ 2 ^ k := by
  by_cases h : c.depth ≤ 2
  · have hfits (hk : 1 ≤ k) : c.depth ≤ 2 ^ k :=
      h.trans (Nat.pow_le_pow_right two_pos hk)
    rw [addrWidth_of_depth_le_two h]
    exact (and_iff_left_of_imp hfits).symm
  · have hbit (hd : c.depth ≤ 2 ^ k) : 1 ≤ k :=
      Nat.pos_of_ne_zero (Nat.one_lt_two_pow_iff.mp (by omega))
    rw [addrWidth_le_iff_of_two_lt (by omega)]
    exact (and_iff_right_of_imp hbit).symm

/-- Settles O32, from the characterisation of each width. -/
theorem registerWidthsAreTheLeast : Obligations.RegisterWidthsAreTheLeast :=
  fun c k => ⟨addrWidth_le_iff c k, countWidth_le_iff c k⟩

end Sys2Proof.Machine
end

section
/-! What a cycle can do to the storage and the registers (R20), said once for every command. -/

namespace Sys2Proof.Machine

variable {s t u : State}

/-- The moves of the buffer: what a cycle can do to the storage and the registers, each with the guard
under which it is taken. -/
inductive BufferMove (s : State) : State → Prop where
  | keep : BufferMove s s
  | reset : BufferMove s (resetState s)
  | append (v : Data) (room : s.count < s.cfg.depth) (slot : storeAddress s < s.cfg.depth) :
      BufferMove s (setCursors (setMem s (slotInsert s.mem (storeAddress s) (addOperand s v)))
        (advance s.cfg.depth s.head) s.tail (s.count + 1))
  | evict (v : Data) (full : s.cfg.depth ≤ s.count) (slot : storeAddress s < s.cfg.depth)
      (policy : s.cfg.policy = .overwrite) :
      BufferMove s (setCursors (setMem s (slotInsert s.mem (storeAddress s) (addOperand s v)))
        (advance s.cfg.depth s.head) (advance s.cfg.depth s.tail) s.count)
  | remove (held : s.count ≠ 0) (slot : loadAddress s < s.cfg.depth) :
      BufferMove s (setCursors s s.head (advance s.cfg.depth s.tail) (s.count - 1))

/-- No move of the buffer writes the build parameters (R7). -/
theorem BufferMove.cfg_eq (h : BufferMove s u) : u.cfg = s.cfg := by
  cases h <;> rfl

/-- A response leaves the storage and the registers alone. -/
theorem fifoKept_respond (s : State) (st : Status) (d : Data) : FifoKept s (respond s st d) :=
  ⟨rfl, rfl, rfl, rfl⟩

/-- Setting up the ports of a cycle leaves the storage and the registers alone. -/
theorem fifoKept_cyclePorts (s : State) : FifoKept s (cyclePorts s) :=
  ⟨rfl, rfl, rfl, rfl⟩

/-- `ADD` appends, evicts, or (rejected) keeps the buffer. -/
theorem execAdd_bufferMove {v : Data} (h : execAdd v s = .next t) :
    ∃ u, BufferMove s u ∧ FifoKept u t := by
  rw [execAdd_eq, storeElement_eq, storeElement_eq] at h
  split_ifs at h with hroom hslot hpol hslot <;> cases h
  · exact ⟨_, .append v hroom hslot, fifoKept_respond ..⟩
  · exact ⟨_, .evict v (not_lt.mp hroom) hslot hpol, fifoKept_respond ..⟩
  · exact ⟨_, .keep, fifoKept_respond ..⟩

/-- `GET` removes, or (underflowing) keeps the buffer. -/
theorem execGet_bufferMove (h : execGet s = .next t) : ∃ u, BufferMove s u ∧ FifoKept u t := by
  rw [execGet_eq] at h
  split_ifs at h with hempty hslot <;> cases h
  · exact ⟨_, .keep, fifoKept_respond ..⟩
  · exact ⟨_, .remove hempty hslot, fifoKept_respond ..⟩

/-- Every instruction that completes made one of the moves. -/
theorem exec_bufferMove {i : Instr} (h : exec i s = .next t) :
    ∃ u, BufferMove s u ∧ FifoKept u t := by
  cases i with
  | add v => exact execAdd_bufferMove h
  | get => exact execGet_bufferMove h
  | init | clear => cases h; exact ⟨_, .reset, fifoKept_respond ..⟩
  | empty | full | rsvd6 | rsvd7 => cases h; exact ⟨_, .keep, fifoKept_respond ..⟩
  | swap16 v | swap32 v => cases h; exact ⟨_, .keep, ⟨rfl, rfl, rfl, rfl⟩⟩

/-- Every cycle that completes made one of the moves (R130). -/
theorem step_bufferMove (h : step s = .next t) :
    ∃ u, BufferMove (cyclePorts s) u ∧ FifoKept u t := by
  obtain ⟨-, hs⟩ | ⟨-, -, hs⟩ | ⟨-, -, hs⟩ := step_cases s <;> rw [hs] at h
  · cases h; exact ⟨_, .reset, fifoKept_respond ..⟩
  · cases h; exact ⟨_, .keep, fifoKept_respond ..⟩
  · exact exec_bufferMove h

/-- No cycle writes the build parameters (R7). -/
theorem step_cfg_eq (h : step s = .next t) : t.cfg = s.cfg := by
  obtain ⟨-, hs⟩ | ⟨-, -, hs⟩ | ⟨-, -, hs⟩ := step_cases s <;> rw [hs] at h
  · cases h; rfl
  · cases h; rfl
  · exact (exec_surround h).1

end Sys2Proof.Machine
end

section
/-! R25, R26: the ranges of the registers and the cursor equation, in every reachable state. -/

namespace Sys2Proof.Machine

variable {s t u : State}

/-- A cursor that is a place of the ring steps to the next place of the ring. -/
theorem advance_mod (N a : Nat) : advance N (a % N) = (a + 1) % N :=
  Nat.mod_add_mod a N 1

/-- A place counted from the next cursor is the next place counted from the cursor. -/
theorem advance_add_mod (N c k : Nat) : (advance N c + k) % N = (c + k + 1) % N := by
  rw [advance, Nat.mod_add_mod, Nat.add_right_comm]

/-- The part of the invariant that speaks of the registers alone: the ranges of R25 and the cursor
equation of R26. -/
structure RegistersInv (s : State) : Prop extends InRange s where
  head_eq : s.head = (s.tail + s.count) % s.cfg.depth

/-- The invariant of the registers is about the build parameters and the registers. -/
theorem RegistersInv.of_fifoKept (h : RegistersInv s) (hcfg : t.cfg = s.cfg) (hk : FifoKept s t) :
    RegistersInv t where
  count_le := by rw [hk.count, hcfg]; exact h.count_le
  head_lt := by rw [hk.head, hcfg]; exact h.head_lt
  tail_lt := by rw [hk.tail, hcfg]; exact h.tail_lt
  head_eq := by rw [hk.head, hk.tail, hk.count, hcfg]; exact h.head_eq

/-- Cursors and count 0 meet the invariant of the registers (R33). -/
theorem registersInv_resetState (s : State) : RegistersInv (resetState s) where
  count_le := Nat.zero_le _
  head_lt := s.cfg.depth_pos
  tail_lt := s.cfg.depth_pos
  head_eq := (Nat.zero_mod _).symm

/-- Every move of the buffer keeps the invariant of the registers. An append moves `head` and the far
end of the window one place on, a removal moves neither, and an eviction moves both cursors, which
stand at one place. -/
theorem RegistersInv.bufferMove (h : RegistersInv s) (hm : BufferMove s u) : RegistersInv u := by
  have hN : 0 < s.cfg.depth := s.cfg.depth_pos
  have hhead : advance s.cfg.depth s.head = (s.tail + s.count + 1) % s.cfg.depth := by
    rw [h.head_eq, advance_mod]
  cases hm with
  | keep => exact h
  | reset => exact registersInv_resetState s
  | append v room slot => exact ⟨⟨room, advance_lt hN _, h.tail_lt⟩, hhead⟩
  | evict v full slot policy =>
    exact ⟨⟨h.count_le, advance_lt hN _, advance_lt hN _⟩,
      hhead.trans (advance_add_mod ..).symm⟩
  | remove held slot =>
    have hback : s.tail + (s.count - 1) + 1 = s.tail + s.count := by omega
    refine ⟨⟨(Nat.sub_le ..).trans h.count_le, h.head_lt, advance_lt hN _⟩, ?_⟩
    calc s.head = (s.tail + (s.count - 1) + 1) % s.cfg.depth := by rw [hback]; exact h.head_eq
      _ = (advance s.cfg.depth s.tail + (s.count - 1)) % s.cfg.depth := (advance_add_mod ..).symm

/-- Every cycle keeps the invariant of the registers. -/
theorem RegistersInv.step (h : RegistersInv s) (hs : step s = .next t) : RegistersInv t := by
  obtain ⟨u, hm, hk⟩ := step_bufferMove hs
  have hports : RegistersInv (cyclePorts s) := h.of_fifoKept rfl (fifoKept_cyclePorts s)
  exact (hports.bufferMove hm).of_fifoKept ((step_cfg_eq hs).trans hm.cfg_eq.symm) hk

/-- The invariant of the registers holds in every reachable state (R25, R26). -/
theorem Reachable.registersInv (h : Reachable s) : RegistersInv s := by
  induction h with
  | reset c stimulus =>
    exact (registersInv_resetState (State.resetOf c)).of_fifoKept rfl ⟨rfl, rfl, rfl, rfl⟩
  | step s t _ hstep ih => exact ih.step hstep

/-- The cursors meet exactly when nothing or everything is held: strictly between, the far end of the
window is another place of the ring. -/
theorem RegistersInv.head_eq_tail_iff (h : RegistersInv s) :
    s.head = s.tail ↔ s.count = 0 ∨ s.count = s.cfg.depth := by
  have htail : s.tail % s.cfg.depth = s.tail := Nat.mod_eq_of_lt h.tail_lt
  constructor
  · intro hmeet
    by_contra hbetween
    have hne : (s.tail + 0) % s.cfg.depth ≠ (s.tail + s.count) % s.cfg.depth :=
      ring_slot_ne (by omega) (by have := h.count_le; omega)
    rw [← h.head_eq, Nat.add_zero, htail] at hne
    exact hne hmeet.symm
  · rintro (hc | hc) <;> rw [h.head_eq, hc]
    · rw [Nat.add_zero, htail]
    · rw [Nat.add_mod_right, htail]

/-- Settles O24, from the invariant of the registers. -/
theorem reachableRegistersAreInRange : Obligations.ReachableRegistersAreInRange :=
  fun _ hr => ⟨hr.registersInv.count_le, hr.registersInv.head_lt, hr.registersInv.tail_lt⟩

/-- Settles O25, from the invariant of the registers. -/
theorem reachableCursorsAgreeWithCount : Obligations.ReachableCursorsAgreeWithCount :=
  fun _ hr => ⟨hr.registersInv.head_eq, hr.registersInv.head_eq_tail_iff⟩

end Sys2Proof.Machine
end

section
/-! R27, R28, R33: the flags, and the state that reset, `INIT` and `CLEAR` leave. -/

namespace Sys2Proof.Machine

variable {s t : State}

theorem emptyFlag_eq_true : emptyFlag s = true ↔ s.count = 0 := beq_iff_eq

theorem fullFlag_eq_true : fullFlag s = true ↔ s.count = s.cfg.depth := beq_iff_eq

theorem emptyFlag_eq_false : emptyFlag s = false ↔ s.count ≠ 0 := beq_eq_false_iff_ne

theorem fullFlag_eq_false : fullFlag s = false ↔ s.count ≠ s.cfg.depth := beq_eq_false_iff_ne

/-- A block that is empty is not full, since it has a slot (R28). -/
theorem fullFlag_of_emptyFlag (h : emptyFlag s = true) : fullFlag s = false := by
  rw [fullFlag_eq_false, emptyFlag_eq_true.mp h]
  exact s.cfg.depth_pos.ne

/-- Neither flag is set only where there is room strictly between 0 and the depth (R28). -/
theorem InRange.two_le_depth_of_partial (h : InRange s) (he : emptyFlag s = false)
    (hf : fullFlag s = false) : 2 ≤ s.cfg.depth := by
  have hle := h.count_le
  rw [emptyFlag_eq_false] at he
  rw [fullFlag_eq_false] at hf
  omega

/-- Settles O26: `count` cannot be 0 and the depth at once, and of a depth below 2 it can only be one
of them. -/
theorem flagsAreNeverBothSet : Obligations.FlagsAreNeverBothSet := by
  refine ⟨fun s hboth => ?_, fun s hr => hr.registersInv.two_le_depth_of_partial, fun s hr hone => ?_⟩
  · exact Bool.false_ne_true ((fullFlag_of_emptyFlag hboth.1).symm.trans hboth.2)
  · refine ⟨fullFlag_of_emptyFlag, fun hf => ?_⟩
    by_contra he
    have := hr.registersInv.two_le_depth_of_partial (Bool.eq_false_of_not_eq_true he) hf
    omega

/-- A state with no element is Empty in every way that R29, R27 and R34 say it. -/
theorem empty_of_count_eq_zero (h : s.count = 0) :
    emptyFlag s = true ∧ fullFlag s = false ∧ level s = .empty ∧ contents s = [] :=
  have he : emptyFlag s = true := emptyFlag_eq_true.mpr h
  ⟨he, fullFlag_of_emptyFlag he, if_pos h, List.eq_nil_of_length_eq_zero (by rw [contents_length, h])⟩

/-- A cycle with `rst = 1` is a reset cycle, whatever else stands on the ports (R130). -/
theorem step_of_rst (h : (cycleInputs s).rst = true) : step s = resetCycle (cyclePorts s) :=
  if_pos h

/-- Settles O19: every reset ends with the registers of `resetState`, and count 0 is Empty. -/
theorem resetLeavesTheSpecifiedState : Obligations.ResetLeavesTheSpecifiedState := by
  intro t ht
  have hreset : ∃ s, FifoKept (resetState s) t := by
    obtain ⟨c, rfl⟩ | ⟨s, hrst, hs⟩ | ⟨s, hs⟩ | ⟨s, hs⟩ := ht
    · exact ⟨State.resetOf c, ⟨rfl, rfl, rfl, rfl⟩⟩
    · rw [step_of_rst hrst] at hs
      cases hs
      exact ⟨_, fifoKept_respond ..⟩
    · cases hs; exact ⟨_, fifoKept_respond ..⟩
    · cases hs; exact ⟨_, fifoKept_respond ..⟩
  obtain ⟨s, hk⟩ := hreset
  exact ⟨hk.head, hk.tail, hk.count, empty_of_count_eq_zero hk.count⟩

end Sys2Proof.Machine
end

section
/-! R43: a cursor moves modulo the depth, one slot at a time, except in `INIT` and `CLEAR`. -/

namespace Sys2Proof.Machine

variable {s t : State}

/-- R43, the step written by cases: the last slot is followed by slot 0, any other by the next one. -/
theorem advance_eq_ite {N c : Nat} (h : c < N) : advance N c = if c = N - 1 then 0 else c + 1 := by
  split_ifs with hlast
  · have hwrap : c + 1 = N := by omega
    rw [advance, hwrap, Nat.mod_self]
  · exact Nat.mod_eq_of_lt (by omega)

/-- Each cursor stands where it stood, or one slot on (R43). -/
structure CursorsStep (s t : State) : Prop where
  head : t.head = s.head ∨ t.head = advance s.cfg.depth s.head
  tail : t.tail = s.tail ∨ t.tail = advance s.cfg.depth s.tail

/-- Where the registers keep their values, no cursor moves. -/
theorem CursorsStep.of_fifoKept (h : FifoKept s t) : CursorsStep s t :=
  ⟨.inl h.head, .inl h.tail⟩

/-- `ADD` steps `head` when it appends, both cursors when it evicts, none when it is rejected (R82). -/
theorem execAdd_cursorsStep {v : Data} (h : execAdd v s = .next t) : CursorsStep s t := by
  rw [execAdd_eq, storeElement_eq, storeElement_eq] at h
  split_ifs at h <;> cases h
  · exact ⟨.inr rfl, .inl rfl⟩
  · exact ⟨.inr rfl, .inr rfl⟩
  · exact .of_fifoKept (fifoKept_respond ..)

/-- `GET` steps `tail` when it removes, none when it underflows (R85). -/
theorem execGet_cursorsStep (h : execGet s = .next t) : CursorsStep s t := by
  rw [execGet_eq] at h
  split_ifs at h <;> cases h
  · exact .of_fifoKept (fifoKept_respond ..)
  · exact ⟨.inl rfl, .inr rfl⟩

/-- No instruction but `INIT` and `CLEAR` moves a cursor otherwise than by the step (R43). -/
theorem exec_cursorsStep {i : Instr} (h : exec i s = .next t) (hinit : i ≠ .init)
    (hclear : i ≠ .clear) : CursorsStep s t := by
  cases i with
  | init => exact absurd rfl hinit
  | clear => exact absurd rfl hclear
  | add v => exact execAdd_cursorsStep h
  | get => exact execGet_cursorsStep h
  | empty | full | rsvd6 | rsvd7 => cases h; exact .of_fifoKept (fifoKept_respond ..)
  | swap16 v | swap32 v => cases h; exact .of_fifoKept ⟨rfl, rfl, rfl, rfl⟩

/-- Settles O31, from the cases of the cursor step and the cursors of each instruction. -/
theorem cursorsAdvanceModuloTheDepth : Obligations.CursorsAdvanceModuloTheDepth := by
  refine ⟨fun N c hc => ⟨advance_lt (Nat.zero_lt_of_lt hc) c, advance_eq_ite hc⟩, ?_⟩
  intro i s t h hinit hclear
  obtain ⟨hhead, htail⟩ := exec_cursorsStep h hinit hclear
  exact ⟨hhead, htail⟩

end Sys2Proof.Machine
end

section
/-! R61, R70: the command word and its two fields, and the decoder against the encoder. -/

namespace Sys2Proof

/-- The `data` field of a word is a datum of the `W` wires, so no bit of it is lost on them. -/
@[simp] theorem dataLow_dataField (W : SlotWidth) (w : BitVec 35) :
    dataLow W (dataField W w) = dataField W w :=
  dataLow_of_lt (by rw [dataField_toNat]; exact Nat.mod_lt _ (Nat.two_pow_pos _))

@[simp] theorem dataLow_zero (W : SlotWidth) : dataLow W 0 = 0 :=
  dataLow_of_lt (Nat.two_pow_pos _)

/-- The `op` field of a word that fits the port is everything above its `W` data bits. -/
theorem opField_toNat_of_fits {W : SlotWidth} {w : BitVec 35} (h : w.toNat < 2 ^ (3 + W.bits)) :
    (opField W w).toNat = w.toNat / 2 ^ W.bits := by
  have hop : w.toNat / 2 ^ W.bits < 2 ^ 3 :=
    Nat.div_lt_of_lt_mul (by rwa [← pow_add, Nat.add_comm])
  rw [opField, BitVec.toNat_setWidth, BitVec.toNat_ushiftRight, Nat.shiftRight_eq_div_pow,
    Nat.mod_eq_of_lt hop]

/-- A word that fits the port is the command word of its two fields. -/
theorem commandWord_fields_of_fits {W : SlotWidth} {w : BitVec 35}
    (h : w.toNat < 2 ^ (3 + W.bits)) : commandWord W (opField W w) (dataField W w) = w :=
  BitVec.eq_of_toNat_eq (by
    rw [commandWord_toNat, opField_toNat_of_fits h, dataField_toNat, Nat.mod_mod,
      Nat.div_add_mod'])

/-- Keeping the opcode of a word and writing the datum `d` gives the word back exactly when `d` has
the word's data bits on the `W` wires. -/
theorem commandWord_opField_eq_iff {W : SlotWidth} {w : BitVec 35}
    (h : w.toNat < 2 ^ (3 + W.bits)) (d : Data) :
    commandWord W (opField W w) d = w ↔ dataLow W d = dataField W w := by
  constructor
  · intro hw
    rw [← dataField_commandWord W (opField W w) d, hw]
  · intro hd
    calc commandWord W (opField W w) d
        = commandWord W (opField W w) (dataLow W d) := BitVec.eq_of_toNat_eq (by
          rw [commandWord_toNat, commandWord_toNat, dataLow_toNat, Nat.mod_mod])
      _ = w := by rw [hd, commandWord_fields_of_fits h]

/-- The decoder accepts exactly the command words that fit the port, and reads their two fields. -/
theorem decode_command_eq_ok_iff {W : SlotWidth} {w : BitVec 35} {i : Instr} :
    decode W (.command w) = .ok i ↔
      w.toNat < 2 ^ (3 + W.bits) ∧ decodeCommand (opField W w) (dataField W w) = i := by
  simp only [decode]
  split_ifs with h <;> simp [h]

/-- The decoder on a command word: the opcode as it is, the datum as its `W` wires carry it. -/
theorem decode_commandWord (W : SlotWidth) (op : BitVec 3) (d : Data) :
    decode W (.command (commandWord W op d)) = .ok (decodeCommand op (dataLow W d)) :=
  decode_command_eq_ok_iff.mpr ⟨Laws.commandWord_fits W op d, by simp⟩

/-- `ADD` is opcode 1 and no other (R62). -/
theorem decodeCommand_eq_add_iff {op : BitVec 3} {d : Data} :
    (∃ v, decodeCommand op d = .add v) ↔ op = 1 := by
  rcases opcode_cases op with h | h | h | h | h | h | h | h <;> subst h <;> simp [decodeCommand]

/-- Encoding what the decoder read keeps the opcode, and keeps the datum of an `ADD` only. -/
theorem encode_decodeCommand (W : SlotWidth) (op : BitVec 3) (d : Data) :
    encode W (decodeCommand op d) = .command (commandWord W op (if op = 1 then d else 0)) := by
  rcases opcode_cases op with h | h | h | h | h | h | h | h <;> subst h <;> rfl

/-- Decoding takes back encoding on every instruction that can be presented (R70). -/
theorem decode_encode {W : SlotWidth} {i : Instr} (h : i.wellFormed W = true) :
    decode W (encode W i) = .ok i := by
  cases i with
  | add v =>
    have hv : dataLow W v = v := dataLow_of_lt (of_decide_eq_true h)
    calc decode W (encode W (.add v))
        = .ok (.add (dataLow W v)) := decode_commandWord W 1 v
      _ = .ok (.add v) := by rw [hv]
  | init | get | empty | full | clear | rsvd6 | rsvd7 => exact decode_commandWord W _ 0
  | swap16 v | swap32 v => rfl

/-- Encoding takes back decoding exactly on `ADD` words and on words whose data bits are 0: the others
lose their don't-care bits (R63, R70). -/
theorem encode_eq_command_iff_of_decode {W : SlotWidth} {w : BitVec 35} {i : Instr}
    (h : decode W (.command w) = .ok i) :
    encode W i = .command w ↔ (∃ v, i = .add v) ∨ dataField W w = 0 := by
  obtain ⟨hfits, rfl⟩ := decode_command_eq_ok_iff.mp h
  rw [encode_decodeCommand, PortWord.command.injEq, commandWord_opField_eq_iff hfits,
    decodeCommand_eq_add_iff]
  by_cases hadd : opField W w = 1
  · rw [if_pos hadd, dataLow_dataField]
    exact iff_of_true rfl (.inl hadd)
  · rw [if_neg hadd, dataLow_zero, or_iff_right hadd]
    exact eq_comm

/-- Settles O48: the two round trips, the decoder on a command word, and the two tables, which are the
definitions' own rows. -/
theorem decodeAndEncodeAgree : Obligations.DecodeAndEncodeAgree :=
  ⟨fun _ _ => decode_encode, fun _ _ _ => encode_eq_command_iff_of_decode, decode_commandWord,
    fun _ => rfl, fun _ _ => rfl⟩

end Sys2Proof
end

section
/-! R82 to R85: what `ADD` and `GET` answer from a state whose registers are in range, and what they do
to the contents. -/

namespace Sys2Proof.Machine

variable {s t u : State}

/-- The buffer after an append: the value in the slot at `head`, which steps (R82). -/
def appended (s : State) (v : Data) : State :=
  setCursors (setMem s (slotInsert s.mem (storeAddress s) (addOperand s v)))
    (advance s.cfg.depth s.head) s.tail (s.count + 1)

/-- The buffer after a removal: `tail` steps over the oldest element (R85). -/
def removed (s : State) : State :=
  setCursors s s.head (advance s.cfg.depth s.tail) (s.count - 1)

/-! ### The answers -/

/-- With room `ADD` appends (R82). -/
theorem exec_add_of_room (hr : InRange s) (room : s.count < s.cfg.depth) (v : Data) :
    exec (.add v) s = .next (respond (appended s v) .ok 0) := by
  have hslot : storeAddress s < s.cfg.depth := hr.head_lt
  rw [exec, execAdd_eq, if_pos room, storeElement_eq, if_pos hslot, appended]

/-- On a full buffer under `OVERWRITE`, `ADD` does what a removal and an append after it do (R83). -/
theorem exec_add_of_full_overwrite (hr : InRange s) (full : s.count = s.cfg.depth)
    (hpol : s.cfg.policy = .overwrite) (v : Data) :
    exec (.add v) s = .next (respond (appended (removed s) v) .ok 0) := by
  have hslot : storeAddress s < s.cfg.depth := hr.head_lt
  have hcount : s.count = s.count - 1 + 1 := by have := s.cfg.depth_pos; omega
  rw [exec, execAdd_eq, if_neg full.not_lt, if_pos hpol, storeElement_eq, if_pos hslot, hcount]
  rfl

/-- On a full buffer under `REJECT`, `ADD` raises `Overflow` (R84). -/
theorem exec_add_of_full_reject (full : s.count = s.cfg.depth) (hpol : s.cfg.policy ≠ .overwrite)
    (v : Data) : exec (.add v) s = .next (respond s .overflow 0) := by
  rw [exec, execAdd_eq, if_neg full.not_lt, if_neg hpol]

/-- On an empty buffer `GET` raises `Underflow` (R85). -/
theorem exec_get_of_empty (hempty : s.count = 0) :
    exec .get s = .next (respond s .underflow 0) := by
  rw [exec, execGet_eq, if_pos hempty]

/-- With an element held `GET` removes the oldest and answers it (R85). -/
theorem exec_get_of_held (hr : InRange s) (held : s.count ≠ 0) :
    exec .get s = .next (respond (removed s) .ok (slotValue s (loadAddress s))) := by
  have hslot : loadAddress s < s.cfg.depth := hr.tail_lt
  rw [exec, execGet_eq, if_neg held, if_pos hslot, removed]

/-- A sync_fifo command leaves alone everything outside the spec's state but its response. -/
theorem exec_command_surround {i : Instr} (hi : i.isCommand = true) (h : exec i s = .next t) :
    SurroundKept s t := by
  obtain ⟨-, -, -, -, hkept⟩ := exec_surround h
  exact hkept hi

/-! ### The invariant of the registers -/

/-- The invariant of the buffer says what that of the registers says. -/
theorem BufferInv.registersInv (h : BufferInv s) : RegistersInv s :=
  ⟨h.toInRange, h.head_eq⟩

theorem registersInv_respond (h : RegistersInv s) (st : Status) (d : Data) :
    RegistersInv (respond s st d) :=
  h.of_fifoKept rfl (fifoKept_respond ..)

theorem registersInv_appended (h : RegistersInv s) (room : s.count < s.cfg.depth) (v : Data) :
    RegistersInv (appended s v) :=
  h.bufferMove (.append v room h.head_lt)

theorem registersInv_removed (h : RegistersInv s) (held : s.count ≠ 0) : RegistersInv (removed s) :=
  h.bufferMove (.remove held h.tail_lt)

/-- A removal from a buffer in range leaves room for an append. -/
theorem removed_has_room (h : InRange s) : (removed s).count < (removed s).cfg.depth := by
  have hle := h.count_le
  have hpos := s.cfg.depth_pos
  show s.count - 1 < s.cfg.depth
  omega

/-- An append after a removal: as many elements as before. -/
theorem count_appended_removed (held : s.count ≠ 0) (v : Data) :
    (appended (removed s) v).count = s.count :=
  Nat.succ_pred held

/-! ### The contents -/

/-- A datum of the `W` wires is carried whole by the `W` wires. -/
@[simp] theorem dataLow_dataLow (W : SlotWidth) (v : Data) : dataLow W (dataLow W v) = dataLow W v :=
  dataLow_of_lt (dataLow_lt W v)

/-- A response is no element. -/
@[simp] theorem contents_respond (s : State) (st : Status) (d : Data) :
    contents (respond s st d) = contents s :=
  contents_congr rfl (fifoKept_respond ..)

/-- After an append the slot at the old `head` holds the value, every other slot what it held. -/
theorem slotValue_appended (s : State) (v : Data) (j : Nat) :
    slotValue (appended s v) j =
      if j = storeAddress s then dataLow s.cfg.width v else slotValue s j := by
  simp only [slotValue, appended, setCursors_cfg, setCursors_mem, setMem_cfg, setMem_mem,
    slotLookup_slotInsert, addOperand]
  split_ifs
  · exact dataLow_dataLow ..
  · rfl

/-- An append puts the value behind the elements held: `head` is the first place after the window, so
no slot of the window is written. -/
theorem contents_appended (h : RegistersInv s) (room : s.count < s.cfg.depth) (v : Data) :
    contents (appended s v) = contents s ++ [dataLow s.cfg.width v] := by
  have hnew : slotValue (appended s v) (windowSlot s s.count) = dataLow s.cfg.width v := by
    rw [slotValue_appended]
    exact if_pos h.head_eq.symm
  have hold (k : Nat) (hk : k ∈ List.range s.count) :
      slotValue (appended s v) (windowSlot s k) = slotValue s (windowSlot s k) := by
    have hlt : k < s.count := List.mem_range.mp hk
    have hne : windowSlot s k ≠ storeAddress s := by
      rw [storeAddress, h.head_eq]
      exact ring_slot_ne hlt (by omega)
    rw [slotValue_appended, if_neg hne]
  calc contents (appended s v)
      = (List.range (s.count + 1)).map fun k => slotValue (appended s v) (windowSlot s k) := rfl
    _ = ((List.range s.count).map fun k => slotValue (appended s v) (windowSlot s k)) ++
          [slotValue (appended s v) (windowSlot s s.count)] := by
        rw [List.range_succ, List.map_append, List.map_singleton]
    _ = contents s ++ [dataLow s.cfg.width v] := by rw [hnew, List.map_congr_left hold, contents]

/-- What is held is the element at `tail`, the oldest, and then what a removal leaves. -/
theorem contents_eq_cons_of_held (h : InRange s) (held : s.count ≠ 0) :
    contents s = slotValue s (loadAddress s) :: contents (removed s) := by
  have hfirst : windowSlot s 0 = loadAddress s := Nat.mod_eq_of_lt h.tail_lt
  have hrest (k : Nat) : windowSlot s (k + 1) = windowSlot (removed s) k :=
    (advance_add_mod ..).symm
  obtain ⟨n, hn⟩ := Nat.exists_eq_succ_of_ne_zero held
  have hcount : (removed s).count = n := by rw [removed, setCursors_count, hn, Nat.succ_sub_one]
  rw [contents, hn, List.range_succ_eq_map, List.map_cons, List.map_map, hfirst, contents, hcount]
  exact congrArg _ (List.map_congr_left fun k _ => congrArg (slotValue s) (hrest k))

theorem contents_removed (h : InRange s) (held : s.count ≠ 0) :
    contents (removed s) = (contents s).tail := by
  rw [contents_eq_cons_of_held h held, List.tail_cons]

/-- An append after a removal: the contents without the oldest, and the value behind them. -/
theorem contents_appended_removed (h : RegistersInv s) (held : s.count ≠ 0) (v : Data) :
    contents (appended (removed s) v) = (contents s).tail ++ [dataLow s.cfg.width v] := by
  rw [contents_appended (registersInv_removed h held) (removed_has_room h.toInRange),
    contents_removed h.toInRange held]
  rfl

end Sys2Proof.Machine
end

section
/-! R82, R112: `ADD` branch by branch. -/

namespace Sys2Proof.Machine

variable {s : State}

/-- The canonical word of `ADD` for `W = 8` (R61). -/
theorem encode_w8_add {v : Data} (h : v.toNat < 256) :
    encode .w8 (.add v) = .command (0x100 ||| v.setWidth 35) := by
  have hv : dataLow .w8 v = v := dataLow_of_lt h
  rw [encode, commandWord, hv]
  rfl

theorem emptyFlag_appended (s : State) (v : Data) : emptyFlag (appended s v) = false :=
  emptyFlag_eq_false.mpr (Nat.succ_ne_zero _)

theorem fullFlag_appended (s : State) (v : Data) :
    fullFlag (appended s v) = true ↔ s.count = s.cfg.depth - 1 := by
  have hpos := s.cfg.depth_pos
  calc fullFlag (appended s v) = true
      ↔ s.count + 1 = s.cfg.depth := fullFlag_eq_true
    _ ↔ s.count = s.cfg.depth - 1 := by omega

/-- Settles O3: the three branches of `ADD`, each with its next state. -/
theorem addAppendsEvictsOrRejects : Obligations.AddAppendsEvictsOrRejects := by
  refine ⟨fun _ => rfl, fun _ => encode_w8_add, fun _ _ => dataLow_of_lt, fun s v hr => ?_⟩
  by_cases room : s.count < s.cfg.depth
  · have hexec := exec_add_of_room hr room v
    refine ⟨_, hexec, exec_command_surround rfl hexec, rfl, ?_⟩
    rw [if_pos room]
    exact ⟨rfl, rfl, rfl, rfl, emptyFlag_appended s v, fullFlag_appended s v,
      fun j => slotLookup_slotInsert ..⟩
  · have full : s.count = s.cfg.depth := le_antisymm hr.count_le (not_lt.mp room)
    have held : s.count ≠ 0 := full ▸ s.cfg.depth_pos.ne'
    by_cases hpol : s.cfg.policy = .overwrite
    · have hexec := exec_add_of_full_overwrite hr full hpol v
      have hcount : (appended (removed s) v).count = s.cfg.depth :=
        (count_appended_removed held v).trans full
      refine ⟨_, hexec, exec_command_surround rfl hexec, rfl, ?_⟩
      rw [if_neg room, if_pos hpol]
      exact ⟨rfl, rfl, rfl, hcount, emptyFlag_appended (removed s) v, fullFlag_eq_true.mpr hcount,
        fun j => slotLookup_slotInsert ..⟩
    · have hexec := exec_add_of_full_reject full hpol v
      refine ⟨_, hexec, exec_command_surround rfl hexec, rfl, ?_⟩
      rw [if_neg room, if_neg hpol]
      exact ⟨rfl, fifoKept_respond .., emptyFlag_eq_false.mpr held, fullFlag_eq_true.mpr full⟩

end Sys2Proof.Machine
end

section
/-! R29, R91: the abstract states Empty, Partial and Full, and the table of their transitions. -/

namespace Sys2Proof.Machine

variable {s : State}

theorem level_eq_empty_iff : level s = .empty ↔ s.count = 0 := by
  unfold level
  grind

theorem level_eq_part_iff : level s = .part ↔ s.count ≠ 0 ∧ s.count ≠ s.cfg.depth := by
  unfold level
  grind

theorem level_eq_full_iff : level s = .full ↔ s.count = s.cfg.depth := by
  have hpos := s.cfg.depth_pos
  unfold level
  grind

@[simp] theorem level_respond (s : State) (st : Status) (d : Data) :
    level (respond s st d) = level s := rfl

/-- An append ends in Partial, or in Full when it takes the last slot (R91). -/
theorem level_appended (room : s.count < s.cfg.depth) (v : Data) :
    level (appended s v) = if s.count + 1 < s.cfg.depth then .part else .full := by
  have held : (appended s v).count ≠ 0 := Nat.succ_ne_zero _
  split_ifs with hleft
  · exact level_eq_part_iff.mpr ⟨held, hleft.ne⟩
  · exact level_eq_full_iff.mpr (le_antisymm room (not_lt.mp hleft))

/-- A removal ends in Partial, or in Empty when it takes the last element (R91). -/
theorem level_removed (hr : InRange s) :
    level (removed s) = if 0 < s.count - 1 then .part else .empty := by
  split_ifs with hleft
  · exact level_eq_part_iff.mpr ⟨hleft.ne', (removed_has_room hr).ne⟩
  · exact level_eq_empty_iff.mpr (Nat.eq_zero_of_not_pos hleft)

/-- Settles O33, row by row: the rows of `ADD` and `GET` from the abstract state that an append and a
removal end in, the others from the definitions. -/
theorem transitionTableOfTheAbstractStates : Obligations.TransitionTableOfTheAbstractStates := by
  intro i s hr hi
  cases i with
  | init | clear => exact ⟨_, rfl, level_eq_empty_iff.mpr rfl, rfl⟩
  | empty | full | rsvd6 | rsvd7 => exact ⟨_, rfl, fifoKept_respond .., rfl⟩
  | swap16 v | swap32 v => cases hi
  | add v =>
    cases hl : level s with
    | empty =>
      have hcount := level_eq_empty_iff.mp hl
      have room : s.count < s.cfg.depth := hcount ▸ s.cfg.depth_pos
      refine ⟨_, exec_add_of_room hr room v, rfl, congrArg (· + 1) hcount, ?_⟩
      rw [level_respond, level_appended room, hcount]
      grind
    | part =>
      obtain ⟨-, hne⟩ := level_eq_part_iff.mp hl
      have room := lt_of_le_of_ne hr.count_le hne
      exact ⟨_, exec_add_of_room hr room v, rfl, level_appended room v⟩
    | full =>
      have full := level_eq_full_iff.mp hl
      have held : s.count ≠ 0 := full ▸ s.cfg.depth_pos.ne'
      by_cases hpol : s.cfg.policy = .overwrite
      · refine ⟨_, exec_add_of_full_overwrite hr full hpol v,
          level_eq_full_iff.mpr ((count_appended_removed held v).trans full), ?_⟩
        rw [if_pos hpol]
        rfl
      · refine ⟨_, exec_add_of_full_reject full hpol v, hl, ?_⟩
        rw [if_neg hpol]
        exact ⟨rfl, fifoKept_respond ..⟩
  | get =>
    cases hl : level s with
    | empty =>
      exact ⟨_, exec_get_of_empty (level_eq_empty_iff.mp hl), rfl, fifoKept_respond ..⟩
    | part =>
      obtain ⟨held, -⟩ := level_eq_part_iff.mp hl
      exact ⟨_, exec_get_of_held hr held, rfl, level_removed hr⟩
    | full =>
      have full := level_eq_full_iff.mp hl
      have held : s.count ≠ 0 := full ▸ s.cfg.depth_pos.ne'
      refine ⟨_, exec_get_of_held hr held, rfl, congrArg (· - 1) full, ?_⟩
      rw [level_respond, level_removed hr, full]
      grind

end Sys2Proof.Machine
end

section
/-! R83, R84: `ADD` on a full buffer, under each policy. -/

namespace Sys2Proof.Machine

variable {s t u : State}

/-- Settles O37: the rejected `ADD` leaves the buffer it found, whose `GET` removes the oldest element
and so makes room for an append. -/
theorem rejectedAddLosesOnlyItsOperand : Obligations.RejectedAddLosesOnlyItsOperand := by
  intro s v hinv full hrej
  have hr := hinv.toInRange
  have held : s.count ≠ 0 := full ▸ s.cfg.depth_pos.ne'
  have hpol : s.cfg.policy ≠ .overwrite := by rw [hrej]; decide
  have hreg := registersInv_respond hinv.registersInv .overflow 0
  have hkept := fifoKept_respond s .overflow 0
  have hget := exec_get_of_held hreg.toInRange held
  refine ⟨_, exec_add_of_full_reject full hpol v, hkept, contents_congr rfl hkept, rfl, _, hget,
    rfl, ?_, fun w => ?_⟩
  · rw [contents_eq_cons_of_held hr held]
    rfl
  · have hreg' (d : Data) := registersInv_respond (registersInv_removed hreg held) .ok d
    have room := removed_has_room hreg.toInRange
    refine ⟨_, exec_add_of_room (hreg' _).toInRange room w, rfl, ?_⟩
    rw [contents_respond, contents_appended (hreg' _) room, contents_respond,
      contents_removed hreg.toInRange held, contents_respond]
    rfl

/-- The last elements of a list that has enough of them without its first. -/
theorem lastElements_cons {n : Nat} {x : Data} {l : List Data} (h : n ≤ l.length) :
    lastElements n (x :: l) = lastElements n l := by
  rw [lastElements, List.length_cons, Nat.succ_sub h, List.drop_succ_cons, lastElements]

/-- As many elements as the list has are the whole list. -/
theorem lastElements_of_length_eq {n : Nat} {l : List Data} (h : l.length = n) :
    lastElements n l = l := by
  rw [lastElements, h, Nat.sub_self, List.drop_zero]

/-- A stream whose first command completes runs on from there. -/
theorem execList_cons_of_next {i : Instr} {is : List Instr} {rs : List (BitVec 2 × Data)}
    (h : exec i s = .next t) (hs : execList is t = some (u, rs)) :
    execList (i :: is) s = some (u, response t :: rs) := by
  simp only [execList, h, hs]

/-- `ADD`s on a full buffer under `OVERWRITE`: each drops the oldest element and appends the value, so
the window slides along the contents followed by the values (R83). -/
theorem execList_adds_of_full_overwrite (vs : List Data) (h : RegistersInv s)
    (full : s.count = s.cfg.depth) (hpol : s.cfg.policy = .overwrite) :
    ∃ t rs, execList (vs.map .add) s = some (t, rs) ∧ (∀ r ∈ rs, r = (0, 0)) ∧
      contents t = lastElements s.cfg.depth (contents s ++ vs.map (dataLow s.cfg.width)) := by
  induction vs generalizing s with
  | nil =>
    refine ⟨s, [], rfl, by simp, ?_⟩
    rw [List.map_nil, List.append_nil, lastElements_of_length_eq (by rw [contents_length, full])]
  | cons v vs ih =>
    have held : s.count ≠ 0 := full ▸ s.cfg.depth_pos.ne'
    have hexec := exec_add_of_full_overwrite h.toInRange full hpol v
    have hreg := registersInv_respond
      (registersInv_appended (registersInv_removed h held) (removed_has_room h.toInRange) v) .ok 0
    obtain ⟨t, rs, hrun, hrs, ht⟩ := ih hreg ((count_appended_removed held v).trans full) hpol
    refine ⟨t, _, execList_cons_of_next hexec hrun, List.forall_mem_cons.mpr ⟨rfl, hrs⟩, ?_⟩
    have hlen : s.cfg.depth ≤
        (contents (removed s) ++ (v :: vs).map (dataLow s.cfg.width)).length := by
      rw [List.length_append, contents_length, List.length_map, List.length_cons, removed,
        setCursors_count]
      omega
    calc contents t
        = lastElements s.cfg.depth
            (((contents s).tail ++ [dataLow s.cfg.width v]) ++ vs.map (dataLow s.cfg.width)) := by
          rw [ht, contents_respond, contents_appended_removed h held]
          rfl
      _ = lastElements s.cfg.depth
            (contents (removed s) ++ (v :: vs).map (dataLow s.cfg.width)) := by
          rw [contents_removed h.toInRange held, List.append_assoc, List.singleton_append,
            List.map_cons]
      _ = lastElements s.cfg.depth (contents s ++ (v :: vs).map (dataLow s.cfg.width)) := by
          rw [contents_eq_cons_of_held h.toInRange held, List.cons_append, lastElements_cons hlen]

/-- Settles O41: one eviction, and the induction over the values added. -/
theorem overwriteKeepsTheNewestElements : Obligations.OverwriteKeepsTheNewestElements := by
  refine ⟨fun s v hinv full hpol => ?_,
    fun vs s hinv => execList_adds_of_full_overwrite vs hinv.registersInv⟩
  have hreg := hinv.registersInv
  have held : s.count ≠ 0 := full ▸ s.cfg.depth_pos.ne'
  refine ⟨_, exec_add_of_full_overwrite hreg.toInRange full hpol v,
    hreg.head_eq_tail_iff.mpr (.inr full),
    fullFlag_eq_true.mpr ((count_appended_removed held v).trans full), rfl, ?_⟩
  rw [contents_respond, contents_appended_removed hreg held]

end Sys2Proof.Machine
end

section
/-! R81, R86 to R89: the commands without an operand that cannot fail or always do. -/

namespace Sys2Proof.Machine

variable {s t u : State}

/-- `INIT` and `CLEAR` are one command under two opcodes (R88, R133). -/
theorem exec_clear_eq_exec_init (s : State) : exec .clear s = exec .init s := rfl

/-- Settles O1: the next state is that of reset, which has no element. -/
theorem initEmptiesTheBuffer : Obligations.InitEmptiesTheBuffer := by
  refine ⟨fun _ => rfl, by decide, fun s => ?_⟩
  have hexec : exec .init s = .next (respond (resetState s) .ok 0) := rfl
  have hcount : (respond (resetState s) .ok 0).count = 0 := rfl
  obtain ⟨hempty, hfull, -, hcontents⟩ := empty_of_count_eq_zero hcount
  exact ⟨_, hexec, rfl, rfl, hcount, rfl, hcontents, hempty, hfull, rfl,
    exec_command_surround rfl hexec, rfl, rfl, rfl⟩

/-- Settles O2, from `INIT`. -/
theorem clearDiscardsEveryElement : Obligations.ClearDiscardsEveryElement := by
  obtain ⟨-, -, hinit⟩ := initEmptiesTheBuffer
  refine ⟨fun _ => rfl, by decide, fun s => ?_⟩
  obtain ⟨t, hexec, hhead, htail, hcount, hmem, hcontents, hempty, hfull, hrsp, hsur, hagain, hclear,
    -⟩ := hinit s
  exact ⟨t, hclear, hhead, htail, hcount, hmem, hcontents, hempty, hfull, hrsp, hsur,
    (exec_clear_eq_exec_init t).trans hagain, hexec⟩

/-- A cycle that presents a command executes it, as the decoder reads it from the port (R130). -/
theorem step_of_command (hrst : (cycleInputs s).rst = false)
    (hvalid : (cycleInputs s).cmdValid = true) :
    step s = exec (decodeCommand (cycleInputs s).cmdOp
      (dataLow s.cfg.width (cycleInputs s).cmdData)) (cyclePorts s) := by
  rw [step_eq, fifoCycle, cyclePorts_pins, if_neg (Bool.eq_false_iff.mp hrst), if_pos hvalid]
  rfl

theorem zextFlag_emptyFlag (s : State) : zextFlag (emptyFlag s) = if s.count = 0 then 1 else 0 :=
  if_congr emptyFlag_eq_true rfl rfl

theorem zextFlag_fullFlag (s : State) :
    zextFlag (fullFlag s) = if s.count = s.cfg.depth then 1 else 0 :=
  if_congr fullFlag_eq_true rfl rfl

/-- A block of one slot is full exactly when it is not empty (R28). -/
theorem emptyFlag_eq_not_fullFlag (hr : InRange s) (hone : s.cfg.depth = 1) :
    emptyFlag s = !fullFlag s := by
  have hle := hr.count_le
  rw [Bool.eq_not, ne_eq, Bool.eq_iff_iff, emptyFlag_eq_true, fullFlag_eq_true]
  omega

/-- Settles O5: the answer is the flag of the state before, and so is what the port shows. -/
theorem emptyReportsTheFlag : Obligations.EmptyReportsTheFlag := by
  refine ⟨fun _ => rfl, by decide, fun s => ?_, fun s hrst hvalid hop => ?_,
    fun s t u hr hone ht hu => ?_⟩
  · exact ⟨_, rfl, fifoKept_respond .., exec_command_surround (i := .empty) rfl rfl,
      congrArg (Prod.mk 0) (zextFlag_emptyFlag s)⟩
  · rw [step_of_command hrst hvalid, hop]
    exact ⟨_, rfl, rfl⟩
  · cases ht
    cases hu
    show zextFlag (emptyFlag s) = 1 - zextFlag (fullFlag s)
    rw [emptyFlag_eq_not_fullFlag hr hone]
    cases fullFlag s <;> rfl

/-- Settles O6: the answer is the flag of the state before, and so is what the port shows. -/
theorem fullReportsTheFlag : Obligations.FullReportsTheFlag := by
  refine ⟨fun _ => rfl, by decide, fun s => ?_, fun s hrst hvalid hop => ?_⟩
  · exact ⟨_, rfl, fifoKept_respond .., exec_command_surround (i := .full) rfl rfl,
      congrArg (Prod.mk 0) (zextFlag_fullFlag s)⟩
  · rw [step_of_command hrst hvalid, hop]
    exact ⟨_, rfl, rfl⟩

/-- Settles O7: each reserved opcode is one `raise` of `IllegalCommand`. -/
theorem reservedOpcodesRaiseIllegal : Obligations.ReservedOpcodesRaiseIllegal :=
  ⟨fun _ => rfl, fun _ => rfl, by decide, by decide, fun _ =>
    ⟨⟨_, rfl, fifoKept_respond .., exec_command_surround (i := .rsvd6) rfl rfl, rfl⟩,
      ⟨_, rfl, fifoKept_respond .., exec_command_surround (i := .rsvd7) rfl rfl, rfl⟩⟩⟩

end Sys2Proof.Machine
end

section
/-! R13, R46: a value is its bytes, least significant first, and both swaps reverse them. -/

namespace Sys2Proof.Machine

variable {w n m k j : Nat}

/-- R13: bit `j` of byte `k` is bit `8k + j` of the value. -/
theorem getLsbD_byteOf (x : BitVec w) (hj : j < 8) :
    (byteOf x k).getLsbD j = x.getLsbD (8 * k + j) := by
  simp [byteOf, hj]

theorem getLsbD_eq_of_byteOf_eq {r v : BitVec w} (h : byteOf r k = byteOf v m) (hj : j < 8) :
    r.getLsbD (8 * k + j) = v.getLsbD (8 * m + j) := by
  rw [← getLsbD_byteOf r hj, h, getLsbD_byteOf v hj]

/-- A value of at most `n` bytes is determined by them. -/
theorem eq_iff_byteOf_eq (hw : w ≤ 8 * n) {x y : BitVec w} :
    x = y ↔ ∀ k < n, byteOf x k = byteOf y k := by
  refine ⟨fun h k _ => h ▸ rfl, fun h => BitVec.eq_of_getLsbD_eq fun i hi => ?_⟩
  have hbit := getLsbD_eq_of_byteOf_eq (h (i / 8) (by omega)) (Nat.mod_lt i (by decide : 8 > 0))
  rwa [Nat.div_add_mod] at hbit

/-- Reversing the bytes twice gives the value back. -/
theorem eq_of_byteOf_reversed_twice (hw : w ≤ 8 * n) {x y z : BitVec w}
    (hy : ∀ k < n, byteOf y k = byteOf x (n - 1 - k))
    (hz : ∀ k < n, byteOf z k = byteOf y (n - 1 - k)) : z = x := by
  refine (eq_iff_byteOf_eq hw).mpr fun k hk => ?_
  rw [hz k hk, hy _ (by omega), Nat.sub_sub_self (by omega)]

@[simp] theorem byteOf_byte (b : Byte) : byteOf b 0 = b := BitVec.extractLsb'_eq_self

/-- The last operand of `++` is the least significant byte (R14). -/
@[simp] theorem byteOf_append_zero (x : BitVec w) (b : Byte) : byteOf (x ++ b) 0 = b :=
  BitVec.extractLsb'_append_eq_right

/-- The bytes above the last operand of `++` are those of the first. -/
@[simp] theorem byteOf_append_succ (x : BitVec w) (b : Byte) (k : Nat) :
    byteOf (x ++ b) (k + 1) = byteOf x k :=
  BitVec.extractLsb'_append_eq_of_le (by omega)

/-- R100: byte `k` of the result is byte `1 - k` of the operand. -/
theorem byteOf_swap16 (v : BitVec 16) : ∀ k < 2, byteOf (swap16 v) k = byteOf v (1 - k)
  | 0, _ => byteOf_append_zero ..
  | 1, _ => (byteOf_append_succ ..).trans (byteOf_byte _)

/-- R101: byte `k` of the result is byte `3 - k` of the operand. -/
theorem byteOf_swap32 (v : BitVec 32) : ∀ k < 4, byteOf (swap32 v) k = byteOf v (3 - k)
  | 0, _ => byteOf_append_zero ..
  | 1, _ => by rw [swap32, byteOf_append_succ, byteOf_append_zero]
  | 2, _ => by rw [swap32, byteOf_append_succ, byteOf_append_succ, byteOf_append_zero]
  | 3, _ => by rw [swap32, byteOf_append_succ, byteOf_append_succ, byteOf_append_succ, byteOf_byte]

/-- Settles O45: each swap reverses the bytes, and reversing them twice changes none. -/
theorem swapsAreInvolutions : Obligations.SwapsAreInvolutions :=
  ⟨fun x => eq_of_byteOf_reversed_twice le_rfl (byteOf_swap16 x) (byteOf_swap16 _),
    fun x => eq_of_byteOf_reversed_twice le_rfl (byteOf_swap32 x) (byteOf_swap32 _)⟩

end Sys2Proof.Machine
end

section
/-! R100, R101: what the swap instructions show, as the shifts, bits and fixed points of the result. -/

namespace Sys2Proof.Machine

theorem exec_swap16 (s : State) (v : BitVec 16) : exec (.swap16 v) s = .next (driveSwap16 s v) := rfl

theorem exec_swap32 (s : State) (v : BitVec 32) : exec (.swap32 v) s = .next (driveSwap32 s v) := rfl

/-- R100, the low byte of the result. -/
theorem getLsbD_swap16_of_lt (v : BitVec 16) {i : Nat} (hi : i < 8) :
    (swap16 v).getLsbD i = v.getLsbD (i + 8) := by
  have hbit := getLsbD_eq_of_byteOf_eq (byteOf_swap16 v 0 (by decide)) hi
  rwa [Nat.mul_zero, Nat.zero_add, Nat.add_comm] at hbit

/-- R100, the high byte of the result. -/
theorem getLsbD_swap16_of_ge (v : BitVec 16) {i : Nat} (hlow : 8 ≤ i) (hi : i < 16) :
    (swap16 v).getLsbD i = v.getLsbD (i - 8) := by
  have hbit := getLsbD_eq_of_byteOf_eq (byteOf_swap16 v 1 (by decide)) (by omega : i - 8 < 8)
  rwa [Nat.mul_one, Nat.add_sub_cancel' hlow, Nat.sub_self, Nat.mul_zero, Nat.zero_add] at hbit

/-- R100: the shift to the left holds the high byte of the result, the shift to the right the low one. -/
theorem swap16_eq_shifts (v : BitVec 16) : swap16 v = (v <<< 8) ||| (v >>> 8) := by
  refine BitVec.eq_of_getLsbD_eq fun i hi => ?_
  rw [BitVec.getLsbD_or, BitVec.getLsbD_shiftLeft, BitVec.getLsbD_ushiftRight]
  rcases Nat.lt_or_ge i 8 with hlow | hhigh
  · simp [getLsbD_swap16_of_lt v hlow, hlow, Nat.add_comm]
  · have hout : v.getLsbD (8 + i) = false := BitVec.getLsbD_of_ge _ _ (by omega)
    rw [getLsbD_swap16_of_ge v hhigh hi, hout]
    simp [hi, hhigh.not_gt]

/-- R101: the four widened bytes are shifted to the places at which `++` joins them. -/
theorem swap32_eq_shifts (v : BitVec 32) :
    swap32 v = ((byteOf v 0).setWidth 32 <<< 24) ||| ((byteOf v 1).setWidth 32 <<< 16) |||
      ((byteOf v 2).setWidth 32 <<< 8) ||| (byteOf v 3).setWidth 32 :=
  (BitVec.setWidth_eq _).symm.trans
    BitVec.setWidth_append_append_append_eq_shiftLeft_setWidth_or

/-- R100: a palindrome of two bytes. -/
theorem swap16_eq_self_iff (v : BitVec 16) : swap16 v = v ↔ byteOf v 0 = byteOf v 1 := by
  rw [eq_iff_byteOf_eq (n := 2) le_rfl]
  constructor
  · intro h
    rw [← h 1 (by decide), byteOf_swap16 v 1 (by decide)]
  · intro h k hk
    rw [byteOf_swap16 v k hk]
    interval_cases k
    exacts [h.symm, h]

/-- R101: a palindrome of four bytes. -/
theorem swap32_eq_self_iff (v : BitVec 32) :
    swap32 v = v ↔ byteOf v 0 = byteOf v 3 ∧ byteOf v 1 = byteOf v 2 := by
  rw [eq_iff_byteOf_eq (n := 4) le_rfl]
  constructor
  · intro h
    rw [← h 3 (by decide), ← h 2 (by decide), byteOf_swap32 v 3 (by decide),
      byteOf_swap32 v 2 (by decide)]
    exact ⟨rfl, rfl⟩
  · rintro ⟨houter, hinner⟩ k hk
    rw [byteOf_swap32 v k hk]
    interval_cases k
    exacts [houter.symm, hinner.symm, hinner, houter]

/-- Settles O8: the instruction drives the port, and each clause is a law of `swap16`. -/
theorem swap16ReversesTheTwoBytes : Obligations.Swap16ReversesTheTwoBytes :=
  ⟨fun _ _ => rfl, fun s v => ⟨swap16 v, exec_swap16 s v, swap16_eq_shifts v,
    fun _ => getLsbD_swap16_of_lt v, fun _ => getLsbD_swap16_of_ge v, swap16_eq_self_iff v⟩,
    by decide⟩

/-- Settles O9: the instruction drives the port, and each clause is a law of `swap32`. -/
theorem swap32ReversesTheFourBytes : Obligations.Swap32ReversesTheFourBytes :=
  ⟨fun _ _ => rfl, fun s v => ⟨swap32 v, exec_swap32 s v, swap32_eq_shifts v,
    fun k _ hk => getLsbD_eq_of_byteOf_eq (byteOf_swap32 v k hk), swap32_eq_self_iff v⟩,
    by decide⟩

end Sys2Proof.Machine
end

section
/-! R105: the 32-bit swap in terms of the 16-bit one. -/

namespace Sys2Proof.Machine

/-- Byte `k` of the half that starts at byte `m` is byte `m + k` of the value. -/
theorem byteOf_half (x : BitVec 32) (m : Nat) {k : Nat} (hk : k < 2) :
    byteOf (x.extractLsb' (8 * m) 16) k = byteOf x (m + k) := by
  refine BitVec.eq_of_getLsbD_eq fun j hj => ?_
  have hin : 8 * k + j < 16 := by omega
  rw [getLsbD_byteOf _ hj, getLsbD_byteOf _ hj, BitVec.getLsbD_extractLsb', Nat.mul_add,
    Nat.add_assoc, decide_eq_true hin, Bool.true_and]

/-- A half is swapped by joining its two bytes in the other order. -/
theorem swap16_half (x : BitVec 32) (m : Nat) :
    swap16 (x.extractLsb' (8 * m) 16) = byteOf x m ++ byteOf x (m + 1) :=
  congrArg₂ (· ++ ·) (byteOf_half x m (by decide)) (byteOf_half x m (by decide))

/-- R105: the four bytes are joined as two pairs. -/
theorem swap32_eq_swap16_halves (x : BitVec 32) :
    swap32 x = swap16 (x.extractLsb' 0 16) ++ swap16 (x.extractLsb' 16 16) :=
  calc swap32 x
      = (byteOf x 0 ++ byteOf x 1) ++ (byteOf x 2 ++ byteOf x 3) := BitVec.append_assoc
    _ = swap16 (x.extractLsb' 0 16) ++ swap16 (x.extractLsb' 16 16) :=
        congrArg₂ (· ++ ·) (swap16_half x 0).symm (swap16_half x 2).symm

/-- R105: a widened value is its 16 bits below a zero half, and zero is its own swap. -/
theorem swap32_setWidth (v : BitVec 16) :
    swap32 (v.setWidth 32) = swap16 v ++ (0 : BitVec 16) := by
  have hwide : v.setWidth 32 = (0 : BitVec 16) ++ v := BitVec.setWidth_eq_append (by decide)
  have hzero : swap16 0 = 0 := by decide
  rw [hwide, swap32_eq_swap16_halves, BitVec.extractLsb'_append_eq_right,
    BitVec.extractLsb'_append_eq_left, hzero]

/-- Sixteen zero bits below a value are a shift of the widened value. -/
theorem append_zero_eq_shiftLeft (v : BitVec 16) :
    v ++ (0 : BitVec 16) = v.setWidth 32 <<< 16 :=
  calc v ++ (0 : BitVec 16)
      = (v ++ (0 : BitVec 16)).setWidth 32 := (BitVec.setWidth_eq _).symm
    _ = (v.setWidth 32 <<< 16) ||| (0 : BitVec 16).setWidth 32 :=
        BitVec.setWidth_append_eq_shiftLeft_setWidth_or
    _ = v.setWidth 32 <<< 16 := BitVec.or_zero

/-- Settles O46: the halves law, and its two readings for a widened value. -/
theorem swap32IsSwap16OfTheHalves : Obligations.Swap32IsSwap16OfTheHalves :=
  ⟨swap32_eq_swap16_halves, swap32_setWidth,
    fun v => (swap32_setWidth v).trans (append_zero_eq_shiftLeft _)⟩

end Sys2Proof.Machine
end

section
/-! R85, R111: `GET` branch by branch. -/

namespace Sys2Proof.Machine

variable {s : State}

/-- A removal takes the last element exactly when one was held (R85). -/
theorem emptyFlag_removed (held : s.count ≠ 0) : emptyFlag (removed s) = true ↔ s.count = 1 :=
  calc emptyFlag (removed s) = true
      ↔ s.count - 1 = 0 := emptyFlag_eq_true
    _ ↔ s.count = 1 := by omega

theorem fullFlag_removed (hr : InRange s) : fullFlag (removed s) = false :=
  fullFlag_eq_false.mpr (removed_has_room hr).ne

/-- Settles O4: the two branches of `GET`, each with its next state. -/
theorem getRemovesTheOldestOrUnderflows : Obligations.GetRemovesTheOldestOrUnderflows := by
  refine ⟨fun _ => rfl, by decide, fun s hr => ?_⟩
  by_cases hempty : s.count = 0
  · have hexec := exec_get_of_empty hempty
    obtain ⟨he, hf, -, -⟩ := empty_of_count_eq_zero hempty
    refine ⟨_, hexec, exec_command_surround rfl hexec, rfl, rfl, ?_⟩
    rw [if_pos hempty]
    exact ⟨fifoKept_respond .., rfl, he, hf⟩
  · have hexec := exec_get_of_held hr hempty
    refine ⟨_, hexec, exec_command_surround rfl hexec, rfl, rfl, ?_⟩
    rw [if_neg hempty]
    exact ⟨rfl, rfl, rfl, fullFlag_removed hr, emptyFlag_removed hempty⟩

end Sys2Proof.Machine
end

section
/-! R110, R116, R117: the causes of the three exceptions, what taking one does, and what it leaves
behind. -/

namespace Sys2Proof.Machine

variable {s t : State} {i j : Instr} {e : FifoException}

/-- The cause of each exception: the instruction, and the registers and policy it meets (R110). -/
def Raises (s : State) (i : Instr) : FifoException → Prop
  | .underflow => i = .get ∧ s.count = 0
  | .overflow => (∃ v, i = .add v) ∧ s.cfg.depth ≤ s.count ∧ s.cfg.policy = .reject
  | .illegalCommand => i = .rsvd6 ∨ i = .rsvd7

/-- Where the cause of an exception is met, the instruction does nothing but raise it. -/
theorem exec_of_raises (h : Raises s i e) : exec i s = raise e s := by
  cases e with
  | underflow =>
    obtain ⟨rfl, hempty⟩ := h
    exact exec_get_of_empty hempty
  | overflow =>
    obtain ⟨⟨v, rfl⟩, hfull, hrej⟩ := h
    have hpol : s.cfg.policy ≠ .overwrite := by rw [hrej]; decide
    rw [exec, execAdd_eq, if_neg hfull.not_gt, if_neg hpol, raise_eq, exceptionStatus]
  | illegalCommand => obtain rfl | rfl := h <;> rfl

/-- A command that completes succeeded, or has met the cause of an exception. -/
theorem rspStatus_eq_zero_or_raises (hi : i.isCommand = true) (h : exec i s = .next t) :
    t.out.rspStatus = 0 ∨ ∃ e, Raises s i e := by
  cases i with
  | init | empty | full | clear => cases h; exact .inl rfl
  | rsvd6 => exact .inr ⟨.illegalCommand, .inl rfl⟩
  | rsvd7 => exact .inr ⟨.illegalCommand, .inr rfl⟩
  | swap16 v | swap32 v => cases hi
  | get =>
    rw [exec, execGet_eq] at h
    split_ifs at h with hempty <;> cases h
    · exact .inr ⟨.underflow, rfl, hempty⟩
    · exact .inl rfl
  | add v =>
    rw [exec, execAdd_eq, storeElement_eq, storeElement_eq] at h
    split_ifs at h with hroom _ hpol <;> cases h
    · exact .inl rfl
    · exact .inl rfl
    · have hrej : s.cfg.policy = .reject := by
        cases hp : s.cfg.policy with
        | overwrite => exact absurd hp hpol
        | reject => rfl
      exact .inr ⟨.overflow, ⟨v, rfl⟩, not_lt.mp hroom, hrej⟩

/-- A command that failed is one `raise` of the exception whose cause it met (R116). -/
theorem exists_raises_of_rspStatus_ne_zero (hi : i.isCommand = true) (h : exec i s = .next t)
    (hfail : t.out.rspStatus ≠ 0) : ∃ e, Raises s i e ∧ raise e s = .next t := by
  obtain ⟨e, he⟩ := (rspStatus_eq_zero_or_raises hi h).resolve_left hfail
  exact ⟨e, he, (exec_of_raises he).symm.trans h⟩

/-- The status that taking an exception shows (R110). -/
theorem rspStatus_of_raise (h : raise e s = .next t) :
    t.out.rspStatus = statusCode (exceptionStatus e) := by
  cases h; rfl

/-- Taking an exception keeps the storage and the registers (R116). -/
theorem fifoKept_of_raise (h : raise e s = .next t) : FifoKept s t := by
  cases h; exact fifoKept_respond ..

/-- Taking an exception touches nothing but the response. -/
theorem surroundKept_of_raise (h : raise e s = .next t) : SurroundKept s t := by
  cases h; exact ⟨rfl, rfl, rfl, rfl, rfl, rfl, rfl⟩

theorem statusCode_exceptionStatus_ne_zero (e : FifoException) :
    statusCode (exceptionStatus e) ≠ 0 := by
  cases e <;> decide

/-- The exceptions have different codes (R110). -/
theorem exceptionStatus_code_injective :
    Function.Injective fun e => statusCode (exceptionStatus e) := by
  intro e e'
  cases e <;> cases e' <;> decide

/-- A command answers with the code of an exception exactly when it has met its cause (R110). -/
theorem rspStatus_eq_code_iff (hi : i.isCommand = true) (h : exec i s = .next t)
    (e : FifoException) : t.out.rspStatus = statusCode (exceptionStatus e) ↔ Raises s i e := by
  constructor
  · intro hcode
    have hfail : t.out.rspStatus ≠ 0 := hcode ▸ statusCode_exceptionStatus_ne_zero e
    obtain ⟨e', he', hraise⟩ := exists_raises_of_rspStatus_ne_zero hi h hfail
    have hsame : e' = e :=
      exceptionStatus_code_injective ((rspStatus_of_raise hraise).symm.trans hcode)
    exact hsame ▸ he'
  · intro he
    exact rspStatus_of_raise ((exec_of_raises he).symm.trans h)

/-- In range, the cause of `Overflow` is a count of exactly the depth. -/
theorem raises_overflow_iff (hr : InRange s) :
    Raises s i .overflow ↔
      (∃ v, i = .add v) ∧ s.count = s.cfg.depth ∧ s.cfg.policy = .reject := by
  rw [Raises, hr.count_le.ge_iff_eq]

/-- An instruction of endian_swap_unit completes and touches neither sync_fifo nor its response
(R103). -/
theorem exec_swap_completes (hi : i.isCommand = false) (s : State) :
    ∃ t, exec i s = .next t ∧ FifoKept s t ∧ response t = response s := by
  cases i with
  | swap16 v | swap32 v => exact ⟨_, rfl, ⟨rfl, rfl, rfl, rfl⟩, rfl⟩
  | init | add | get | empty | full | clear | rsvd6 | rsvd7 => cases hi

/-- Settles O34: each code is that of one exception, and each exception has its cause. -/
theorem eachStatusHasItsExactCause : Obligations.EachStatusHasItsExactCause := by
  refine ⟨fun i s hr hi => ?_, fun i s hi => exec_swap_completes hi s⟩
  obtain ⟨t, h, -⟩ := transitionTableOfTheAbstractStates i s hr hi
  have hcode := rspStatus_eq_code_iff hi h
  refine ⟨t, h, hcode .underflow, (hcode .overflow).trans (raises_overflow_iff hr),
    hcode .illegalCommand, or_iff_not_imp_left.mpr fun hfail => ?_⟩
  obtain ⟨e, -, hraise⟩ := exists_raises_of_rspStatus_ne_zero hi h hfail
  exact fifoKept_of_raise hraise

/-- Settles O35: what `raise` does, and that a failed command is one `raise`. -/
theorem exceptionsChangeNoState : Obligations.ExceptionsChangeNoState := by
  refine ⟨fun e s => ⟨_, rfl, fifoKept_of_raise rfl, surroundKept_of_raise rfl, ?_⟩,
    fun i s t hi h hfail => ?_⟩
  · cases e <;> rfl
  · obtain ⟨e, he, hraise⟩ := exists_raises_of_rspStatus_ne_zero hi h hfail
    have hcode := rspStatus_of_raise hraise
    have hdata : t.out.rspData = 0 := by cases hraise; rfl
    refine ⟨fifoKept_of_raise hraise, surroundKept_of_raise hraise, hdata, ?_⟩
    cases e with
    | underflow =>
      obtain ⟨hget, -⟩ := he
      exact .inl ⟨hget, hcode, hraise⟩
    | overflow =>
      obtain ⟨hadd, -, -⟩ := he
      exact .inr (.inl ⟨hadd, hcode, hraise⟩)
    | illegalCommand => exact .inr (.inr ⟨he, hcode, hraise⟩)

/-- No command reads the response of an earlier one, and every command that completes overwrites it. -/
theorem exec_respond (hj : j.isCommand = true) (s : State) (st : Status) (d : Data) :
    exec j (respond s st d) = exec j s := by
  cases j with
  | init | empty | full | clear | rsvd6 | rsvd7 => rfl
  | swap16 v | swap32 v => cases hj
  | get =>
    simp only [exec, execGet_eq]
    rfl
  | add v =>
    simp only [exec, execAdd_eq, storeElement_eq]
    rfl

/-- Settles O36: a failed command left a response behind, which the next command does not read. -/
theorem exceptionsLeaveNothingBehind : Obligations.ExceptionsLeaveNothingBehind := by
  intro i j s t hi hj h hfail
  obtain ⟨e, -, hraise⟩ := exists_raises_of_rspStatus_ne_zero hi h hfail
  cases hraise
  exact exec_respond hj s (exceptionStatus e) 0

end Sys2Proof.Machine
end

section
/-! R130, R133: what a reset, an idle and a command cycle do, and the one state change of reset, `INIT`
and `CLEAR`. -/

namespace Sys2Proof.Machine

variable {s s' t u : State}

theorem FifoKept.symm (h : FifoKept s t) : FifoKept t s :=
  ⟨h.mem.symm, h.head.symm, h.tail.symm, h.count.symm⟩

theorem FifoKept.trans (hst : FifoKept s t) (htu : FifoKept t u) : FifoKept s u :=
  ⟨htu.mem.trans hst.mem, htu.head.trans hst.head, htu.tail.trans hst.tail,
    htu.count.trans hst.count⟩

/-- From the same storage and registers, the reset state change ends in the same ones (R133). -/
theorem FifoKept.resetState (h : FifoKept s s') : FifoKept (resetState s) (resetState s') :=
  ⟨h.mem, rfl, rfl, rfl⟩

/-- A cycle with `rst = 1` makes the reset state change and answers `(0, 0)`, from every state (R130). -/
theorem step_resets_of_rst (hrst : (cycleInputs s).rst = true) :
    ∃ t, step s = .next t ∧ FifoKept (resetState s) t ∧ response t = (0, 0) :=
  ⟨_, step_of_rst hrst, (fifoKept_cyclePorts s).resetState.trans (fifoKept_respond ..), rfl⟩

/-- A cycle with neither reset nor command is an idle cycle (R65, R130). -/
theorem step_of_idle (hrst : (cycleInputs s).rst = false)
    (hvalid : (cycleInputs s).cmdValid = false) : step s = idleCycle (cyclePorts s) := by
  rw [step_eq, fifoCycle, cyclePorts_pins, if_neg (Bool.eq_false_iff.mp hrst),
    if_neg (Bool.eq_false_iff.mp hvalid)]

/-- Whatever the cycle, its sync_fifo half leaves the flag ports as the start of the cycle set them: they
show the flags of the state before (R130, last line). -/
theorem step_flagPorts (h : step s = .next t) :
    t.out.empty = emptyFlag s ∧ t.out.full = fullFlag s := by
  obtain ⟨-, hs⟩ | ⟨-, -, hs⟩ | ⟨-, -, hs⟩ := step_cases s <;> rw [hs] at h
  · cases h; exact ⟨rfl, rfl⟩
  · cases h; exact ⟨rfl, rfl⟩
  · obtain ⟨-, -, hempty, hfull, -⟩ := exec_surround h
    exact ⟨hempty, hfull⟩

/-- Settles O12, branch by branch of the clocked step. -/
theorem eachCycleFollowsTheClockedStep : Obligations.EachCycleFollowsTheClockedStep := by
  refine fun s => ⟨fun hrst => ?_, fun hrst hidle => ?_, fun hrst hvalid => ?_,
    fun t ht => step_flagPorts ht⟩
  · obtain ⟨t, hstep, hk, hrsp⟩ := step_resets_of_rst hrst
    exact ⟨t, hstep, hk.head, hk.tail, hk.count, hk.mem, hrsp⟩
  · exact ⟨_, step_of_idle hrst hidle, (fifoKept_cyclePorts s).trans (fifoKept_respond ..), rfl⟩
  · exact ⟨cyclePorts s, fifoKept_cyclePorts s, cyclePorts_cfg s, step_of_command hrst hvalid⟩

/-- Settles O20: all three make the change of `resetState`, from the same storage. -/
theorem resetInitAndClearAreOneStateChange : Obligations.ResetInitAndClearAreOneStateChange := by
  intro s s' hk hrst
  obtain ⟨u, hstep, hu, -⟩ := step_resets_of_rst hrst
  have hinit : exec .init s = .next (respond (resetState s) .ok 0) := rfl
  have ht : FifoKept (resetState s) (respond (resetState s) .ok 0) := fifoKept_respond ..
  exact ⟨_, u, hinit, (exec_clear_eq_exec_init s).trans hinit, rfl, hstep,
    ht.symm.trans (hk.resetState.trans hu), ht.head, ht.tail, ht.count, ht.mem⟩

end Sys2Proof.Machine
end

section
/-! R25, R26, R34: the invariant of the buffer, and that every move of the buffer keeps it. -/

namespace Sys2Proof.Machine

variable {s t u : State}

/-- The invariant of the buffer is about the build parameters, the storage and the registers. -/
theorem BufferInv.of_fifoKept (h : BufferInv s) (hcfg : t.cfg = s.cfg) (hk : FifoKept s t) :
    BufferInv t where
  toInRange := (h.registersInv.of_fifoKept hcfg hk).toInRange
  head_eq := (h.registersInv.of_fifoKept hcfg hk).head_eq
  mem_wf := by rw [hk.mem]; exact h.mem_wf
  mem_slots := by rw [hk.mem, hcfg]; exact h.mem_slots
  window_written := by
    simp only [windowSlot, hk.mem, hk.tail, hk.count, hcfg]
    exact h.window_written

/-- A reset keeps the storage and leaves no window to be written (R33). -/
theorem BufferInv.resetState (h : BufferInv s) : BufferInv (resetState s) where
  toInRange := (registersInv_resetState s).toInRange
  head_eq := (registersInv_resetState s).head_eq
  mem_wf := h.mem_wf
  mem_slots := h.mem_slots
  window_written := fun k hk => absurd hk (Nat.not_lt_zero k)

/-- A written slot stays written under any further write. -/
theorem slotLookup_slotInsert_isSome {m : Memory} {i j : Nat} (v : Data)
    (h : j = i ∨ (slotLookup m j).isSome = true) :
    (slotLookup (slotInsert m i v) j).isSome = true := by
  rw [slotLookup_slotInsert]
  split_ifs with hji
  · rfl
  · exact h.resolve_left hji

/-- An append writes the slot at `head`, which the cursor equation puts right behind the window. -/
theorem BufferInv.appended (h : BufferInv s) (room : s.count < s.cfg.depth) (v : Data) :
    BufferInv (appended s v) where
  toInRange := (registersInv_appended h.registersInv room v).toInRange
  head_eq := (registersInv_appended h.registersInv room v).head_eq
  mem_wf := slotInsert_wf h.mem_wf ..
  mem_slots := by
    intro c hc
    rcases mem_slotInsert hc with rfl | hc
    · exact ⟨h.head_lt, dataLow_lt ..⟩
    · exact h.mem_slots c hc
  window_written := by
    intro k hk
    refine slotLookup_slotInsert_isSome _ ?_
    rcases Nat.lt_succ_iff_lt_or_eq.mp hk with hold | rfl
    · exact .inr (h.window_written k hold)
    · exact .inl h.head_eq.symm

/-- A removal writes no slot, and its window is the old one without the first slot. -/
theorem BufferInv.removed (h : BufferInv s) (held : s.count ≠ 0) : BufferInv (removed s) where
  toInRange := (registersInv_removed h.registersInv held).toInRange
  head_eq := (registersInv_removed h.registersInv held).head_eq
  mem_wf := h.mem_wf
  mem_slots := h.mem_slots
  window_written := by
    intro k hk
    have hk' : k + 1 < s.count := Nat.add_lt_of_lt_sub hk
    have hslot : windowSlot (Machine.removed s) k = windowSlot s (k + 1) := advance_add_mod ..
    rw [hslot]
    exact h.window_written (k + 1) hk'

/-- Every move of the buffer keeps the invariant. An eviction is a removal and an append after it. -/
theorem BufferInv.bufferMove (h : BufferInv s) (hm : BufferMove s u) : BufferInv u := by
  cases hm with
  | keep => exact h
  | reset => exact h.resetState
  | append v room slot => exact h.appended room v
  | evict v full slot policy =>
    have held : s.count ≠ 0 := (s.cfg.depth_pos.trans_le full).ne'
    have hevict := (h.removed held).appended (removed_has_room h.toInRange) v
    have hcount : (Machine.removed s).count + 1 = s.count := Nat.succ_pred held
    rw [Machine.appended, hcount] at hevict
    exact hevict
  | remove held slot => exact h.removed held

/-- No instruction writes the build parameters (R7). -/
theorem exec_cfg_eq {i : Instr} (h : exec i s = .next t) : t.cfg = s.cfg :=
  (exec_surround h).1

/-- Every instruction keeps the invariant. -/
theorem BufferInv.exec {i : Instr} (h : BufferInv s) (he : exec i s = .next t) : BufferInv t := by
  obtain ⟨u, hm, hk⟩ := exec_bufferMove he
  exact (h.bufferMove hm).of_fifoKept ((exec_cfg_eq he).trans hm.cfg_eq.symm) hk

/-- Every cycle keeps the invariant. -/
theorem BufferInv.step (h : BufferInv s) (hs : step s = .next t) : BufferInv t := by
  obtain ⟨u, hm, hk⟩ := step_bufferMove hs
  have hports : BufferInv (cyclePorts s) := h.of_fifoKept rfl (fifoKept_cyclePorts s)
  exact (hports.bufferMove hm).of_fifoKept ((step_cfg_eq hs).trans hm.cfg_eq.symm) hk

/-- Settles O22, from the moves of the buffer. -/
theorem everyStepKeepsTheInvariant : Obligations.EveryStepKeepsTheInvariant :=
  fun _ _ h => h.step

/-- Settles O21: after reset the storage lists no slot and the window is empty. -/
theorem resetHasTheInvariant : Obligations.ResetHasTheInvariant := fun c =>
  { (registersInv_resetState (State.resetOf c)).of_fifoKept rfl ⟨rfl, rfl, rfl, rfl⟩ with
    mem_wf := List.Pairwise.nil
    mem_slots := fun _ hc => absurd hc List.not_mem_nil
    window_written := fun k hk => absurd hk (Nat.not_lt_zero k) }

end Sys2Proof.Machine
end

section
/-! R34, R92: the block runs every command stream as the bounded queue does. -/

namespace Sys2Proof.Machine

variable {s t u : State} {i : Instr} {is : List Instr} {rs : List (BitVec 2 × Data)}

/-- Every instruction keeps the invariant of the registers. -/
theorem RegistersInv.exec (h : RegistersInv s) (he : exec i s = .next t) : RegistersInv t := by
  obtain ⟨u, hm, hk⟩ := exec_bufferMove he
  exact (h.bufferMove hm).of_fifoKept ((exec_cfg_eq he).trans hm.cfg_eq.symm) hk

@[simp] theorem response_respond (s : State) (st : Status) (d : Data) :
    response (respond s st d) = answer st d := rfl

/-- The flag `empty` is the queue's (R27, R34). -/
theorem isEmpty_contents (s : State) : (contents s).isEmpty = emptyFlag s := by
  rw [Bool.eq_iff_iff, List.isEmpty_iff_length_eq_zero, contents_length, emptyFlag_eq_true]

/-- Where nothing is held the contents are empty, and only there. -/
theorem contents_eq_nil_iff : contents s = [] ↔ s.count = 0 := by
  rw [← List.length_eq_zero_iff, contents_length]

theorem queueExec_add_of_room {c : Config} {q : List Data} (room : q.length < c.depth) (v : Data) :
    queueExec c (.add v) q = (q ++ [dataLow c.width v], answer .ok 0) :=
  if_pos room

theorem queueExec_add_of_full {c : Config} {q : List Data} (full : ¬ q.length < c.depth) (v : Data) :
    queueExec c (.add v) q =
      match c.policy with
      | .overwrite => (q.tail ++ [dataLow c.width v], answer .ok 0)
      | .reject => (q, answer .overflow 0) :=
  if_neg full

/-- `ADD` on the block is `ADD` on the queue, branch by branch (R82). -/
theorem exec_add_refines_queue (h : RegistersInv s) (v : Data) :
    ∃ t, exec (.add v) s = .next t ∧
      (contents t, response t) = queueExec s.cfg (.add v) (contents s) := by
  have hlen := contents_length s
  by_cases room : s.count < s.cfg.depth
  · refine ⟨_, exec_add_of_room h.toInRange room v, ?_⟩
    rw [queueExec_add_of_room (hlen ▸ room), contents_respond, contents_appended h room,
      response_respond]
  · have full : s.count = s.cfg.depth := le_antisymm h.count_le (not_lt.mp room)
    have held : s.count ≠ 0 := full ▸ s.cfg.depth_pos.ne'
    rw [queueExec_add_of_full (hlen ▸ room)]
    cases hpol : s.cfg.policy with
    | overwrite =>
      refine ⟨_, exec_add_of_full_overwrite h.toInRange full hpol v, ?_⟩
      rw [contents_respond, contents_appended_removed h held, response_respond]
    | reject =>
      have hne : s.cfg.policy ≠ .overwrite := by rw [hpol]; decide
      refine ⟨_, exec_add_of_full_reject full hne v, ?_⟩
      rw [contents_respond, response_respond]

/-- `GET` on the block is `GET` on the queue (R85). -/
theorem exec_get_refines_queue (h : RegistersInv s) :
    ∃ t, exec .get s = .next t ∧ (contents t, response t) = queueExec s.cfg .get (contents s) := by
  by_cases hempty : s.count = 0
  · refine ⟨_, exec_get_of_empty hempty, ?_⟩
    rw [contents_respond, contents_eq_nil_iff.mpr hempty, response_respond, queueExec]
  · refine ⟨_, exec_get_of_held h.toInRange hempty, ?_⟩
    rw [contents_respond, contents_eq_cons_of_held h.toInRange hempty, response_respond, queueExec]

/-- One command on the block is one command on the bounded queue. Of the invariant it needs the part
that speaks of the registers only. -/
theorem exec_refines_queue (h : RegistersInv s) (hi : i.isCommand = true) :
    ∃ t, exec i s = .next t ∧ (contents t, response t) = queueExec s.cfg i (contents s) := by
  cases i with
  | init | clear => exact ⟨_, rfl, rfl⟩
  | add v => exact exec_add_refines_queue h v
  | get => exact exec_get_refines_queue h
  | empty =>
    refine ⟨_, rfl, ?_⟩
    rw [queueExec, isEmpty_contents, contents_respond, response_respond]
  | full =>
    refine ⟨_, rfl, ?_⟩
    rw [queueExec, contents_length, contents_respond, response_respond, fullFlag]
  | rsvd6 | rsvd7 =>
    refine ⟨_, rfl, ?_⟩
    rw [queueExec, contents_respond, response_respond, exceptionStatus]
  | swap16 v | swap32 v => cases hi

/-- Settles O38, from the refinement of one command. -/
theorem eachCommandActsAsOnAQueue : Obligations.EachCommandActsAsOnAQueue := by
  intro i s h hi
  obtain ⟨t, he, hq⟩ := exec_refines_queue h.registersInv hi
  exact ⟨t, he, h.exec he, hq⟩

/-- What a run of a non-empty stream can answer: its head ran, and the rest ran from there. -/
theorem execList_cons_eq_some :
    execList (i :: is) s = some (t, rs) ↔
      ∃ u rs', exec i s = .next u ∧ execList is u = some (t, rs') ∧ rs = response u :: rs' := by
  rw [execList]
  cases exec i s with
  | next u => cases execList is u <;> grind
  | fault f => simp
  | refused r => simp

/-- What every instruction keeps, every stream keeps. -/
theorem execList_keeps {P : State → Prop} (hP : ∀ i s t, P s → exec i s = .next t → P t) (h : P s)
    (hrun : execList is s = some (t, rs)) : P t := by
  induction is generalizing s rs with
  | nil => cases hrun; exact h
  | cons i is ih =>
    obtain ⟨u, rs', he, hrest, -⟩ := execList_cons_eq_some.mp hrun
    exact ih (hP i s u h he) hrest

theorem execList_cfg_eq (hrun : execList is s = some (t, rs)) : t.cfg = s.cfg :=
  execList_keeps (P := fun u => u.cfg = s.cfg)
    (fun _ _ _ hu he => (exec_cfg_eq he).trans hu) rfl hrun

/-- Every command stream runs to its end, and answers and ends as on the bounded queue. -/
theorem execList_refines_queue (h : RegistersInv s) (his : ∀ i ∈ is, i.isCommand = true) :
    ∃ t rs, execList is s = some (t, rs) ∧ (contents t, rs) = queueList s.cfg is (contents s) := by
  induction is generalizing s with
  | nil => exact ⟨s, [], rfl, rfl⟩
  | cons i is ih =>
    obtain ⟨hi, his⟩ := List.forall_mem_cons.mp his
    obtain ⟨u, he, hu⟩ := exec_refines_queue h hi
    obtain ⟨t, rs, hrun, ht⟩ := ih (h.exec he) his
    have hcfg := exec_cfg_eq he
    refine ⟨t, _, execList_cons_of_next he hrun, ?_⟩
    rw [queueList, ← hu, ← hcfg, ← ht]

/-- Settles O39: the run refines the queue, and its instructions keep the invariant. -/
theorem commandStreamsRefineTheQueue : Obligations.CommandStreamsRefineTheQueue := by
  intro is s h his
  obtain ⟨t, rs, hrun, hq⟩ := execList_refines_queue h.registersInv his
  exact ⟨t, rs, hrun, execList_keeps (fun _ _ _ => BufferInv.exec) h hrun, hq⟩

end Sys2Proof.Machine
end

section
/-! R35: slots outside the window are never observed. -/

namespace Sys2Proof.Machine

variable {s s' t t' : State} {i : Instr} {is : List Instr}

/-- The invariant of the registers is about what two states with the same window share. -/
theorem RegistersInv.of_sameWindow (h : RegistersInv s) (hw : SameWindow s s') : RegistersInv s' where
  count_le := by rw [hw.count, hw.cfg]; exact h.count_le
  head_lt := by rw [hw.head, hw.cfg]; exact h.head_lt
  tail_lt := by rw [hw.tail, hw.cfg]; exact h.tail_lt
  head_eq := by rw [hw.head, hw.tail, hw.count, hw.cfg]; exact h.head_eq

/-- Two empty blocks of the same parameters, whose cursors agree, have the same window. -/
theorem SameWindow.of_empty (hcfg : t.cfg = s.cfg) (hhead : t.head = s.head) (htail : t.tail = s.tail)
    (hs : s.count = 0) (ht : t.count = 0) : SameWindow s t :=
  ⟨hcfg, hhead, htail, ht.trans hs.symm,
    (contents_eq_nil_iff.mpr ht).trans (contents_eq_nil_iff.mpr hs).symm⟩

/-- Responses are no part of the window. -/
theorem SameWindow.respond (hw : SameWindow s s') (st st' : Status) (d d' : Data) :
    SameWindow (respond s st d) (respond s' st' d') :=
  ⟨hw.cfg, hw.head, hw.tail, hw.count, by simp only [contents_respond, hw.window]⟩

theorem SameWindow.resetState (hw : SameWindow s s') : SameWindow (resetState s) (resetState s') :=
  .of_empty hw.cfg rfl rfl rfl rfl

/-- An append puts the same value behind the same window. -/
theorem SameWindow.appended (hw : SameWindow s s') (h : RegistersInv s) (room : s.count < s.cfg.depth)
    (v : Data) : SameWindow (appended s v) (appended s' v) where
  cfg := hw.cfg
  head := by simp only [Machine.appended, setCursors_head, hw.cfg, hw.head]
  tail := hw.tail
  count := congrArg (· + 1) hw.count
  window := by
    have room' : s'.count < s'.cfg.depth := by rw [hw.count, hw.cfg]; exact room
    rw [contents_appended h room, contents_appended (h.of_sameWindow hw) room', hw.window, hw.cfg]

/-- A removal takes the same element from the same window. -/
theorem SameWindow.removed (hw : SameWindow s s') (h : RegistersInv s) (held : s.count ≠ 0) :
    SameWindow (removed s) (removed s') where
  cfg := hw.cfg
  head := hw.head
  tail := by simp only [Machine.removed, setCursors_tail, hw.cfg, hw.tail]
  count := congrArg (· - 1) hw.count
  window := by
    have held' : s'.count ≠ 0 := hw.count ▸ held
    rw [contents_removed h.toInRange held, contents_removed (h.of_sameWindow hw).toInRange held',
      hw.window]

/-- The oldest element is read from the window. -/
theorem SameWindow.slotValue_loadAddress (hw : SameWindow s s') (h : RegistersInv s)
    (held : s.count ≠ 0) : slotValue s' (loadAddress s') = slotValue s (loadAddress s) := by
  have held' : s'.count ≠ 0 := hw.count ▸ held
  have hwin := hw.window
  rw [contents_eq_cons_of_held h.toInRange held,
    contents_eq_cons_of_held (h.of_sameWindow hw).toInRange held'] at hwin
  exact (List.cons.inj hwin).1

/-- An `ADD` does and answers the same in two states with the same window. -/
theorem exec_add_sameWindow (h : RegistersInv s) (hw : SameWindow s s') (v : Data) :
    ∃ t t', exec (.add v) s = .next t ∧ exec (.add v) s' = .next t' ∧ SameWindow t t' ∧
      response t' = response t := by
  have hr := h.toInRange
  have hr' := (h.of_sameWindow hw).toInRange
  by_cases room : s.count < s.cfg.depth
  · have room' : s'.count < s'.cfg.depth := by rw [hw.count, hw.cfg]; exact room
    exact ⟨_, _, exec_add_of_room hr room v, exec_add_of_room hr' room' v,
      (hw.appended h room v).respond .., rfl⟩
  · have full : s.count = s.cfg.depth := le_antisymm h.count_le (not_lt.mp room)
    have full' : s'.count = s'.cfg.depth := by rw [hw.count, hw.cfg]; exact full
    have held : s.count ≠ 0 := full ▸ s.cfg.depth_pos.ne'
    by_cases hpol : s.cfg.policy = .overwrite
    · exact ⟨_, _, exec_add_of_full_overwrite hr full hpol v,
        exec_add_of_full_overwrite hr' full' (hw.cfg ▸ hpol) v,
        ((hw.removed h held).appended (registersInv_removed h held) (removed_has_room hr) v).respond ..,
        rfl⟩
    · exact ⟨_, _, exec_add_of_full_reject full hpol v,
        exec_add_of_full_reject full' (hw.cfg ▸ hpol) v, hw.respond .., rfl⟩

/-- A `GET` does and answers the same in two states with the same window. -/
theorem exec_get_sameWindow (h : RegistersInv s) (hw : SameWindow s s') :
    ∃ t t', exec .get s = .next t ∧ exec .get s' = .next t' ∧ SameWindow t t' ∧
      response t' = response t := by
  by_cases hempty : s.count = 0
  · exact ⟨_, _, exec_get_of_empty hempty, exec_get_of_empty (hw.count.trans hempty), hw.respond ..,
      rfl⟩
  · exact ⟨_, _, exec_get_of_held h.toInRange hempty,
      exec_get_of_held (h.of_sameWindow hw).toInRange (hw.count ▸ hempty),
      (hw.removed h hempty).respond .., congrArg (answer .ok) (hw.slotValue_loadAddress h hempty)⟩

/-- A command does and answers the same in two states with the same window (R35). -/
theorem exec_sameWindow (h : RegistersInv s) (hw : SameWindow s s') (hi : i.isCommand = true) :
    ∃ t t', exec i s = .next t ∧ exec i s' = .next t' ∧ SameWindow t t' ∧
      response t' = response t := by
  cases i with
  | init | clear => exact ⟨_, _, rfl, rfl, hw.resetState.respond .., rfl⟩
  | add v => exact exec_add_sameWindow h hw v
  | get => exact exec_get_sameWindow h hw
  | empty =>
    refine ⟨_, _, rfl, rfl, hw.respond .., ?_⟩
    rw [response_respond, response_respond, emptyFlag, emptyFlag, hw.count]
  | full =>
    refine ⟨_, _, rfl, rfl, hw.respond .., ?_⟩
    rw [response_respond, response_respond, fullFlag, fullFlag, hw.count, hw.cfg]
  | rsvd6 | rsvd7 => exact ⟨_, _, rfl, rfl, hw.respond .., rfl⟩
  | swap16 v | swap32 v => cases hi

/-- Every command stream answers the same from two states with the same window, and leaves two such
states again. Of the invariant it needs the part that speaks of the registers only. -/
theorem execList_sameWindow (h : RegistersInv s) (hw : SameWindow s s')
    (his : ∀ i ∈ is, i.isCommand = true) :
    ∃ t t' rs, execList is s = some (t, rs) ∧ execList is s' = some (t', rs) ∧ SameWindow t t' := by
  induction is generalizing s s' with
  | nil => exact ⟨s, s', [], rfl, rfl, hw⟩
  | cons i is ih =>
    obtain ⟨hi, his⟩ := List.forall_mem_cons.mp his
    obtain ⟨u, u', he, he', hu, hrsp⟩ := exec_sameWindow h hw hi
    obtain ⟨t, t', rs, hrun, hrun', ht⟩ := ih (h.exec he) hu his
    exact ⟨t, t', response u :: rs, execList_cons_of_next he hrun,
      hrsp ▸ execList_cons_of_next he' hrun', ht⟩

/-- Settles O40, by the relational invariant `SameWindow`. -/
theorem staleSlotsAreNeverObserved : Obligations.StaleSlotsAreNeverObserved :=
  fun _ _ _ h _ hw his => execList_sameWindow h.registersInv hw his

/-- Settles O52: a reset cycle gives two blocks the same empty window, whatever their storage. -/
theorem responsesAfterResetIgnoreTheStorage : Obligations.ResponsesAfterResetIgnoreTheStorage := by
  intro is s s' hcfg his hrst hrst'
  obtain ⟨u, hstep, hk, -⟩ := step_resets_of_rst hrst
  obtain ⟨u', hstep', hk', -⟩ := step_resets_of_rst hrst'
  have hcfg_u : u.cfg = s.cfg := step_cfg_eq hstep
  have hu : RegistersInv u := (registersInv_resetState s).of_fifoKept hcfg_u hk
  have hw : SameWindow u u' :=
    .of_empty ((step_cfg_eq hstep').trans (hcfg.trans hcfg_u.symm))
      (hk'.head.trans hk.head.symm) (hk'.tail.trans hk.tail.symm) hk.count hk'.count
  obtain ⟨t, t', rs, hrun, hrun', ht⟩ := execList_sameWindow hu hw his
  exact ⟨u, u', t, t', rs, hstep, hstep', hrun, hrun', ht⟩

end Sys2Proof.Machine
end

section
/-! R92, R139: what the bounded queue says of filling, draining and passing values through the block. -/

namespace Sys2Proof.Machine

variable {s t u : State} {i : Instr} {is : List Instr} {rs : List (BitVec 2 × Data)} {x : Data}

/-! ### Filling and draining the queue -/

/-- Any number of `ADD`s for which the queue has room are all held, in order. -/
theorem queueList_adds_of_room {c : Config} (vs q : List Data) (room : q.length + vs.length ≤ c.depth) :
    queueList c (vs.map .add) q =
      (q ++ vs.map (dataLow c.width), List.replicate vs.length (answer .ok 0)) := by
  induction vs generalizing q with
  | nil => simp [queueList]
  | cons v vs ih =>
    have hlen : q.length + (vs.length + 1) ≤ c.depth := room
    have hrest := ih (q ++ [dataLow c.width v]) (by simp; omega)
    rw [List.map_cons, queueList, queueExec_add_of_room (by omega), hrest]
    simp [List.replicate_succ]

/-- As many `GET`s as the queue has elements return them in order and leave none. -/
theorem queueList_drain (c : Config) (q : List Data) :
    queueList c (List.replicate q.length .get) q = ([], q.map (answer .ok)) := by
  induction q with
  | nil => rfl
  | cons x q ih => rw [List.length_cons, List.replicate_succ, queueList, queueExec, ih, List.map_cons]

/-- Settles O42: the queue holds the values, and the flags count them. -/
theorem addsFillAnEmptyBuffer : Obligations.AddsFillAnEmptyBuffer := by
  intro vs s h hempty hle
  have his : ∀ i ∈ vs.map Instr.add, i.isCommand = true := by simp [Instr.isCommand]
  obtain ⟨t, rs, hrun, hq⟩ := execList_refines_queue h.registersInv his
  rw [contents_eq_nil_iff.mpr hempty,
    queueList_adds_of_room vs [] (by simpa using hle), List.nil_append, Prod.mk.injEq] at hq
  obtain ⟨hcontents, rfl⟩ := hq
  have hcount : t.count = vs.length := by rw [← contents_length, hcontents, List.length_map]
  refine ⟨t, _, hrun, fun r hr => List.eq_of_mem_replicate hr, hcontents, ?_, ?_⟩
  · rw [fullFlag_eq_true, hcount, execList_cfg_eq hrun]
  · rw [emptyFlag_eq_true, hcount, List.length_eq_zero_iff]

/-- An `ADD` to a full queue and then as many `GET`s as it holds, under each policy. -/
theorem queueList_add_drain_of_full {c : Config} {q : List Data} (full : q.length = c.depth)
    (v : Data) :
    queueList c (.add v :: List.replicate c.depth .get) q =
      if c.policy = .reject then ([], answer .overflow 0 :: q.map (answer .ok))
      else ([], answer .ok 0 :: (q.tail ++ [dataLow c.width v]).map (answer .ok)) := by
  have hpos := c.depth_pos
  rw [queueList, queueExec_add_of_full full.not_lt]
  cases hpol : c.policy with
  | reject => rw [← full, queueList_drain, if_pos rfl]
  | overwrite =>
    have hlen : c.depth = (q.tail ++ [dataLow c.width v]).length := by simp; omega
    rw [hlen, queueList_drain, if_neg (by decide)]

/-- Settles O44: the queue is drained, and a buffer without contents is empty. -/
theorem addOnFullThenDrainUnderEachPolicy : Obligations.AddOnFullThenDrainUnderEachPolicy := by
  intro s v h full
  have his : ∀ i ∈ Instr.add v :: List.replicate s.cfg.depth .get, i.isCommand = true :=
    List.forall_mem_cons.mpr ⟨rfl, fun i hi => List.eq_of_mem_replicate hi ▸ rfl⟩
  obtain ⟨t, rs, hrun, hq⟩ := execList_refines_queue h.registersInv his
  rw [queueList_add_drain_of_full ((contents_length s).trans full)] at hq
  split_ifs at hq ⊢ <;> obtain ⟨hcontents, rfl⟩ := Prod.mk.inj hq <;>
    exact ⟨t, emptyFlag_eq_true.mpr (contents_eq_nil_iff.mp hcontents), hrun⟩

/-! ### One value through an empty block -/

/-- An `ADD` to an empty buffer: the buffer holds the value. -/
theorem exec_add_of_empty (h : RegistersInv s) (hempty : s.count = 0) (v : Data) :
    ∃ t, exec (.add v) s = .next t ∧ contents t = [dataLow s.cfg.width v] ∧ response t = (0, 0) := by
  obtain ⟨t, he, hq⟩ := exec_add_refines_queue h v
  rw [contents_eq_nil_iff.mpr hempty, queueExec_add_of_room (q := []) s.cfg.depth_pos] at hq
  obtain ⟨hcontents, hrsp⟩ := Prod.mk.inj hq
  exact ⟨t, he, hcontents, hrsp⟩

/-- A `GET` from a buffer of one element: the element is returned and the buffer is empty. -/
theorem exec_get_of_singleton (h : RegistersInv s) (hx : contents s = [x]) :
    ∃ t, exec .get s = .next t ∧ t.count = 0 ∧ response t = (0, x) := by
  obtain ⟨t, he, hq⟩ := exec_get_refines_queue h
  rw [hx] at hq
  obtain ⟨hcontents, hrsp⟩ := Prod.mk.inj hq
  exact ⟨t, he, contents_eq_nil_iff.mp hcontents, hrsp⟩

/-- Settles O43: the one element is the value added. -/
theorem addThenGetReturnsTheValue : Obligations.AddThenGetReturnsTheValue := by
  intro s v h hempty
  obtain ⟨t, hadd, hcontents, -⟩ := exec_add_of_empty h.registersInv hempty v
  obtain ⟨u, hget, hcount, hrsp⟩ := exec_get_of_singleton (h.registersInv.exec hadd) hcontents
  exact ⟨t, u, hadd, hget, hrsp, emptyFlag_eq_true.mpr hcount⟩

/-! ### The order of the values -/

/-- A command that neither discards nor evicts: what was held and what it put in are what it took out
and what is held then. -/
theorem queueExec_conserves {c : Config} {q : List Data} (hinit : i ≠ .init) (hclear : i ≠ .clear)
    (hroom : (∃ v, i = .add v) → c.policy = .overwrite → q.length < c.depth) :
    q ++ (acceptedValue c.width i (queueExec c i q).2).toList =
      (returnedValue i (queueExec c i q).2).toList ++ (queueExec c i q).1 := by
  cases i with
  | init => exact absurd rfl hinit
  | clear => exact absurd rfl hclear
  | empty | full | rsvd6 | rsvd7 | swap16 v | swap32 v =>
    simp [queueExec, acceptedValue, returnedValue]
  | get => cases q <;> simp [queueExec, acceptedValue, returnedValue, answer, statusCode]
  | add v =>
    by_cases room : q.length < c.depth
    · simp [queueExec_add_of_room room, acceptedValue, returnedValue, answer]
    · rw [queueExec_add_of_full room]
      cases hpol : c.policy with
      | overwrite => exact absurd (hroom ⟨v, rfl⟩ hpol) room
      | reject => simp [acceptedValue, returnedValue, answer, statusCode]

/-- The same on the block, for an instruction that evicts nothing. -/
theorem exec_conserves (h : RegistersInv s) (hev : ¬ evicts i s) (hi : i.isCommand = true)
    (hinit : i ≠ .init) (hclear : i ≠ .clear) :
    ∃ t, exec i s = .next t ∧
      contents s ++ (acceptedValue s.cfg.width i (response t)).toList =
        (returnedValue i (response t)).toList ++ contents t := by
  obtain ⟨t, he, hq⟩ := exec_refines_queue h hi
  have hroom : (∃ v, i = .add v) → s.cfg.policy = .overwrite → (contents s).length < s.cfg.depth := by
    intro hadd hpol
    rw [contents_length]
    exact lt_of_le_of_ne h.count_le fun full => hev ⟨hadd, full, hpol⟩
  have hcons := queueExec_conserves hinit hclear hroom
  rw [← hq] at hcons
  exact ⟨t, he, hcons⟩

theorem acceptedValues_cons (W : SlotWidth) (i : Instr) (is : List Instr) (r : BitVec 2 × Data)
    (rs : List (BitVec 2 × Data)) :
    acceptedValues W (i :: is) (r :: rs) = (acceptedValue W i r).toList ++ acceptedValues W is rs := by
  rw [acceptedValues, List.zip_cons_cons, List.filterMap_cons]
  cases acceptedValue W i r <;> rfl

theorem returnedValues_cons (i : Instr) (is : List Instr) (r : BitVec 2 × Data)
    (rs : List (BitVec 2 × Data)) :
    returnedValues (i :: is) (r :: rs) = (returnedValue i r).toList ++ returnedValues is rs := by
  rw [returnedValues, List.zip_cons_cons, List.filterMap_cons]
  cases returnedValue i r <;> rfl

/-- A stream that neither discards nor evicts: what was held and what it put in are, in order, what it
took out and what is held at its end. -/
theorem execList_conserves (h : RegistersInv s) (hev : NoEviction is s)
    (his : ∀ i ∈ is, i.isCommand = true ∧ i ≠ .init ∧ i ≠ .clear) :
    ∃ t rs, execList is s = some (t, rs) ∧
      contents s ++ acceptedValues s.cfg.width is rs = returnedValues is rs ++ contents t := by
  induction is generalizing s with
  | nil => exact ⟨s, [], rfl, List.append_nil _⟩
  | cons i is ih =>
    obtain ⟨⟨hi, hinit, hclear⟩, his⟩ := List.forall_mem_cons.mp his
    obtain ⟨hnow, hlater⟩ := hev
    obtain ⟨u, he, hone⟩ := exec_conserves h hnow hi hinit hclear
    obtain ⟨t, rs, hrun, hrest⟩ := ih (h.exec he) (hlater u he) his
    have hcfg := exec_cfg_eq he
    refine ⟨t, _, execList_cons_of_next he hrun, ?_⟩
    rw [acceptedValues_cons, returnedValues_cons]
    calc contents s ++ ((acceptedValue s.cfg.width i (response u)).toList ++
          acceptedValues s.cfg.width is rs)
        = (returnedValue i (response u)).toList ++
            (contents u ++ acceptedValues u.cfg.width is rs) := by
          rw [← List.append_assoc, hone, List.append_assoc, hcfg]
      _ = ((returnedValue i (response u)).toList ++ returnedValues is rs) ++ contents t := by
          rw [hrest, List.append_assoc]

/-- Settles O51: the order law; from an empty buffer what was put in begins with what is returned. -/
theorem getsReturnAddsInOrder : Obligations.GetsReturnAddsInOrder := by
  intro is s h hev his
  obtain ⟨t, rs, hrun, horder⟩ := execList_conserves h.registersInv hev his
  refine ⟨t, rs, hrun, horder, fun hempty k hk => ?_⟩
  rw [contents_eq_nil_iff.mpr hempty, List.nil_append] at horder
  rw [horder, List.getElem?_append_left hk]

end Sys2Proof.Machine
end

section
/-! R7, R25, R40, R66, R137: what every instruction and every cycle keeps, and when one stops. -/

namespace Sys2Proof.Machine

variable {s t u : State} {i : Instr} {f : Fault}

/-! ### When an instruction stops -/

/-- Storing an element faults exactly at an address that is no slot (R40). -/
theorem storeElement_eq_fault_iff {v : Data} {h t c : Nat} :
    storeElement s v h t c = .fault f ↔ f = .noSuchSlot ∧ s.cfg.depth ≤ storeAddress s := by
  rw [storeElement_eq]
  split_ifs with hslot
  · exact iff_of_false nofun fun hf => hf.2.not_gt hslot
  · rw [Host.Outcome.fault.injEq, eq_comm, and_iff_left (not_lt.mp hslot)]

/-- `ADD` faults exactly where it would store, at an address that is no slot. -/
theorem execAdd_eq_fault_iff {v : Data} :
    execAdd v s = .fault f ↔ f = .noSuchSlot ∧ s.cfg.depth ≤ storeAddress s ∧
      (s.count < s.cfg.depth ∨ s.cfg.policy = .overwrite) := by
  rw [execAdd_eq]
  split_ifs with room hpol
  · rw [storeElement_eq_fault_iff, and_iff_left (Or.inl room)]
  · rw [storeElement_eq_fault_iff, and_iff_left (Or.inr hpol)]
  · exact iff_of_false nofun fun hf => hf.2.2.elim room hpol

/-- `GET` faults exactly where it would load, from an address that is no slot. -/
theorem execGet_eq_fault_iff :
    execGet s = .fault f ↔ f = .noSuchSlot ∧ s.count ≠ 0 ∧ s.cfg.depth ≤ loadAddress s := by
  rw [execGet_eq]
  split_ifs with hempty hslot
  · exact iff_of_false nofun fun hf => hf.2.1 hempty
  · exact iff_of_false nofun fun hf => hf.2.2.not_gt hslot
  · rw [Host.Outcome.fault.injEq, eq_comm, and_iff_left ⟨hempty, not_lt.mp hslot⟩]

theorem storeElement_ne_refused {v : Data} {h t c : Nat} {r : Refusal} :
    storeElement s v h t c ≠ .refused r := by
  rw [storeElement_eq]
  split_ifs <;> nofun

/-- Every instruction of the table has a meaning in every state. -/
theorem exec_ne_refused (i : Instr) (s : State) (r : Refusal) : exec i s ≠ .refused r := by
  cases i with
  | init | empty | full | clear | rsvd6 | rsvd7 | swap16 v | swap32 v => nofun
  | add v =>
    rw [exec, execAdd_eq]
    split_ifs
    · exact storeElement_ne_refused
    · exact storeElement_ne_refused
    · nofun
  | get =>
    rw [exec, execGet_eq]
    split_ifs <;> nofun

/-- Settles O30: only `ADD` and `GET` access a slot. -/
theorem onlyAMissingSlotFaults : Obligations.OnlyAMissingSlotFaults := by
  refine fun i s => ⟨exec_ne_refused i s, fun f => ?_⟩
  cases i with
  | init | empty | full | clear | rsvd6 | rsvd7 | swap16 v | swap32 v =>
    exact iff_of_false nofun nofun
  | add v =>
    rw [exec, execAdd_eq_fault_iff]
    simp
  | get =>
    rw [exec, execGet_eq_fault_iff]
    simp

/-! ### The ranges -/

/-- Every instruction completes where the registers are in range (R25). -/
theorem exec_completes (h : InRange s) (i : Instr) : ∃ t, exec i s = .next t := by
  cases hexec : exec i s with
  | next t => exact ⟨t, rfl⟩
  | refused r => exact absurd hexec (exec_ne_refused i s r)
  | fault f =>
    obtain ⟨-, ⟨-, -, hslot, -⟩ | ⟨-, -, hslot⟩⟩ := ((onlyAMissingSlotFaults i s).2 f).mp hexec
    · exact absurd h.head_lt hslot.not_gt
    · exact absurd h.tail_lt hslot.not_gt

/-- The ranges are about the build parameters and the registers. -/
theorem InRange.of_fifoKept (h : InRange s) (hcfg : t.cfg = s.cfg) (hk : FifoKept s t) : InRange t where
  count_le := by rw [hk.count, hcfg]; exact h.count_le
  head_lt := by rw [hk.head, hcfg]; exact h.head_lt
  tail_lt := by rw [hk.tail, hcfg]; exact h.tail_lt

/-- Every move of the buffer keeps the ranges, whether or not the cursor equation holds. -/
theorem InRange.bufferMove (h : InRange s) (hm : BufferMove s u) : InRange u := by
  have hN : 0 < s.cfg.depth := s.cfg.depth_pos
  cases hm with
  | keep => exact h
  | reset => exact ⟨Nat.zero_le _, hN, hN⟩
  | append v room slot => exact ⟨room, advance_lt hN _, h.tail_lt⟩
  | evict v full slot policy => exact ⟨h.count_le, advance_lt hN _, advance_lt hN _⟩
  | remove held slot => exact ⟨(Nat.sub_le ..).trans h.count_le, h.head_lt, advance_lt hN _⟩

/-- Every cycle keeps the ranges. -/
theorem InRange.step (h : InRange s) (hs : step s = .next t) : InRange t := by
  obtain ⟨u, hm, hk⟩ := step_bufferMove hs
  have hports : InRange (cyclePorts s) := h.of_fifoKept rfl (fifoKept_cyclePorts s)
  exact (hports.bufferMove hm).of_fifoKept ((step_cfg_eq hs).trans hm.cfg_eq.symm) hk

/-- Every cycle completes where the registers are in range: reset and idle cycles always do (R137). -/
theorem step_completes (h : InRange s) : ∃ t, step s = .next t := by
  have hports : InRange (cyclePorts s) := h.of_fifoKept rfl (fifoKept_cyclePorts s)
  obtain ⟨-, hs⟩ | ⟨-, -, hs⟩ | ⟨-, -, hs⟩ := step_cases s <;> rw [hs]
  · exact ⟨_, rfl⟩
  · exact ⟨_, rfl⟩
  · exact exec_completes hports _

/-- Settles O23, from completion and the ranges. -/
theorem theBlockNeverStops : Obligations.TheBlockNeverStops := by
  intro s h
  obtain ⟨t, hs⟩ := step_completes h
  exact ⟨t, hs, h.step hs⟩

/-! ### The parameters, the storage and the response -/

/-- Settles O27, from what an instruction and a cycle leave alone. -/
theorem parametersNeverChange : Obligations.ParametersNeverChange :=
  ⟨fun _ _ _ => exec_cfg_eq, fun _ _ => step_cfg_eq⟩

/-- Every move of the buffer keeps the canonical form: it writes one slot or none. -/
theorem BufferMove.mem_wf (hm : BufferMove s u) (h : s.mem.wf) : u.mem.wf := by
  cases hm with
  | keep | reset | remove => exact h
  | append | evict => exact slotInsert_wf h ..

/-- Settles O28, from the moves of the buffer. -/
theorem storageKeepsItsCanonicalForm : Obligations.StorageKeepsItsCanonicalForm := by
  refine ⟨fun i s t hwf h => ?_, fun s t hwf h => ?_⟩
  · obtain ⟨u, hm, hk⟩ := exec_bufferMove h
    rw [hk.mem]
    exact hm.mem_wf hwf
  · obtain ⟨u, hm, hk⟩ := step_bufferMove h
    rw [hk.mem]
    exact hm.mem_wf hwf

/-- A flag fits every data port (R66). -/
theorem zextFlag_lt (b : Bool) (W : SlotWidth) : (zextFlag b).toNat < 2 ^ W.bits := by
  cases b <;> cases W <;> decide

/-- Settles O29: a command answers 0, a flag, or the value of a slot. -/
theorem responseDataFitsItsPort : Obligations.ResponseDataFitsItsPort := by
  intro i s t hi h
  have hzero : (0 : Data).toNat < 2 ^ s.cfg.width.bits := Nat.two_pow_pos _
  cases i with
  | init | clear | rsvd6 | rsvd7 => cases h; exact hzero
  | empty | full => cases h; exact zextFlag_lt ..
  | swap16 v | swap32 v => cases hi
  | get =>
    rw [exec, execGet_eq] at h
    split_ifs at h <;> cases h
    · exact hzero
    · exact slotValue_lt ..
  | add v =>
    rw [exec, execAdd_eq, storeElement_eq, storeElement_eq] at h
    split_ifs at h <;> cases h <;> exact hzero

end Sys2Proof.Machine
end

section
/-! R60, R80, R103, R130: what a cycle reads from the ports and what it shows there. -/

namespace Sys2Proof.Machine

variable {s s' t : State} {i : Instr} {W : SlotWidth} {p q : Inputs} {rest : List Inputs}

/-! ### A command and the ports -/

/-- The state with other ports and other coming inputs. -/
def onPorts (s : State) (pins : Inputs) (out : Outputs) (stimulus : List Inputs) : State :=
  { s with pins := pins, out := out, stimulus := stimulus }

/-- The output ports with the response that `t` shows. -/
def withResponseOf (t : State) (out : Outputs) : Outputs :=
  { out with rspStatus := t.out.rspStatus, rspData := t.out.rspData }

/-- States of the same parameters, storage and registers differ in the ports only. -/
theorem eq_onPorts_of_fifoKept (hcfg : s'.cfg = s.cfg) (hk : FifoKept s s') :
    s' = onPorts s s'.pins s'.out s'.stimulus := by
  obtain ⟨hmem, hhead, htail, hcount⟩ := hk
  rw [onPorts, ← hcfg, ← hmem, ← hhead, ← htail, ← hcount]

/-- A command neither reads nor writes a port but its response (R80). -/
theorem exec_onPorts (hi : i.isCommand = true) (h : exec i s = .next t) (pins : Inputs)
    (out : Outputs) (stimulus : List Inputs) :
    exec i (onPorts s pins out stimulus) =
      .next (onPorts t pins (withResponseOf t out) stimulus) := by
  cases i with
  | init | empty | full | clear | rsvd6 | rsvd7 => cases h; rfl
  | swap16 v | swap32 v => cases hi
  | get =>
    rw [exec, execGet_eq] at h ⊢
    split_ifs at h with hempty hslot <;> cases h
    · exact if_pos hempty
    · exact (if_neg hempty).trans (if_pos hslot)
  | add v =>
    rw [exec, execAdd_eq, storeElement_eq, storeElement_eq] at h ⊢
    split_ifs at h with hroom hslot hpol hslot <;> cases h
    · exact (if_pos hroom).trans (if_pos hslot)
    · exact (if_neg hroom).trans ((if_pos hpol).trans (if_pos hslot))
    · exact (if_neg hroom).trans (if_neg hpol)

/-- Settles O17: the next state is the same but for the ports. -/
theorem commandsReadOnlyTheFifoState : Obligations.CommandsReadOnlyTheFifoState :=
  fun _ _ _ pins out stimulus hi h =>
    ⟨_, exec_onPorts hi h pins out stimulus, ⟨rfl, rfl, rfl, rfl⟩, rfl⟩

/-! ### What a cycle asks of sync_fifo -/

/-- What the inputs of a cycle ask of sync_fifo: the command that the cycle runs, where a reset runs as
`INIT` (R133) and an idle cycle runs none (R130). -/
def cycleCommand (W : SlotWidth) (p : Inputs) : Option Instr :=
  if p.rst then some .init
  else if p.cmdValid then some (decodeCommand p.cmdOp (dataLow W p.cmdData))
  else none

/-- The sync_fifo half of a cycle that runs the given command or none. -/
def runCommand : Option Instr → State → Result
  | some i => exec i
  | none => idleCycle

/-- A cycle runs what its inputs ask for, once the ports are set up (R130). -/
theorem step_eq_runCommand (s : State) :
    step s = runCommand (cycleCommand s.cfg.width (cycleInputs s)) (cyclePorts s) := by
  rw [step_eq, fifoCycle, cyclePorts_pins, cycleCommand]
  split_ifs <;> rfl

theorem cycleCommand_of_rst (h : p.rst = true) : cycleCommand W p = some .init := if_pos h

theorem cycleCommand_of_command (hrst : p.rst = false) (hvalid : p.cmdValid = true) :
    cycleCommand W p = some (decodeCommand p.cmdOp (dataLow W p.cmdData)) := by
  rw [cycleCommand, hrst, hvalid]
  rfl

theorem cycleCommand_of_idle (hrst : p.rst = false) (hvalid : p.cmdValid = false) :
    cycleCommand W p = none := by
  rw [cycleCommand, hrst, hvalid]
  rfl

/-- A cycle runs no instruction but a sync_fifo command. -/
theorem isCommand_of_cycleCommand (h : cycleCommand W p = some i) : i.isCommand = true := by
  rw [cycleCommand] at h
  split_ifs at h <;> cases h
  · rfl
  · exact decodeCommand_isCommand ..

/-- The sync_fifo half of a cycle touches no port but the response. -/
theorem step_surround (h : step s = .next t) : SurroundKept (cyclePorts s) t := by
  rw [step_eq_runCommand] at h
  cases hc : cycleCommand s.cfg.width (cycleInputs s) with
  | some i =>
    rw [hc] at h
    exact exec_command_surround (isCommand_of_cycleCommand hc) h
  | none =>
    rw [hc] at h
    cases h
    exact ⟨rfl, rfl, rfl, rfl, rfl, rfl, rfl⟩

/-- Two cycles from the same parameters, storage and registers, whose inputs ask the same of sync_fifo,
end alike but for the ports; in each the ports are set up by its own inputs, and the response is the
same. -/
theorem step_congr (h : step s = .next t) (hcfg : s'.cfg = s.cfg) (hk : FifoKept s s')
    (hsame : cycleCommand s.cfg.width (cycleInputs s') = cycleCommand s.cfg.width (cycleInputs s)) :
    step s' = .next (onPorts t (cycleInputs s') (withResponseOf t (cyclePorts s').out)
      s'.stimulus.tail) := by
  have hports : cyclePorts s' =
      onPorts (cyclePorts s) (cycleInputs s') (cyclePorts s').out s'.stimulus.tail :=
    eq_onPorts_of_fifoKept hcfg
      (((fifoKept_cyclePorts s).symm.trans hk).trans (fifoKept_cyclePorts s'))
  rw [step_eq_runCommand] at h
  rw [step_eq_runCommand, hcfg, hsame, hports]
  cases hc : cycleCommand s.cfg.width (cycleInputs s) with
  | some i =>
    rw [hc] at h
    exact exec_onPorts (isCommand_of_cycleCommand hc) h ..
  | none =>
    rw [hc] at h
    cases h
    rfl

/-- What the surround keeps, the output ports keep but for the response. -/
theorem SurroundKept.withResponseOf_out (h : SurroundKept s t) : withResponseOf t s.out = t.out := by
  rw [withResponseOf, ← h.empty, ← h.full, ← h.sw16, ← h.sw32]

/-- Where only the inputs of the command port differ and ask the same of sync_fifo, a cycle ends in the
same state but for the pins. -/
theorem step_eq_of_same_request (h : step { s with stimulus := p :: rest } = .next t)
    (h16 : q.sw16In = p.sw16In) (h32 : q.sw32In = p.sw32In)
    (hsame : cycleCommand s.cfg.width q = cycleCommand s.cfg.width p) :
    step { s with stimulus := q :: rest } = .next { t with pins := q } := by
  have hsur := step_surround h
  have hrest : t.stimulus = rest := hsur.stimulus
  have hout : (cyclePorts { s with stimulus := q :: rest }).out =
      (cyclePorts { s with stimulus := p :: rest }).out := by
    simp only [cyclePorts_out, cycleInputs, h16, h32]
    rfl
  have hstep := step_congr (s' := { s with stimulus := q :: rest }) h rfl ⟨rfl, rfl, rfl, rfl⟩ hsame
  rw [hout, hsur.withResponseOf_out] at hstep
  rw [hstep, onPorts, hrest]
  rfl

/-- The data bits are part of the operand of `ADD` and of nothing else (R63). -/
theorem decodeCommand_ignores_data {op : BitVec 3} (h : op ≠ 1) (d d' : Data) :
    decodeCommand op d = decodeCommand op d' := by
  rcases opcode_cases op with hop | hop | hop | hop | hop | hop | hop | hop <;> subst hop
  · rfl
  · exact absurd rfl h
  all_goals rfl

/-- Settles O13: the decoder reads the same command. -/
theorem dataBitsOfOtherCommandsAreIgnored : Obligations.DataBitsOfOtherCommandsAreIgnored := by
  intro s t p rest d hrst hvalid hop h
  refine step_eq_of_same_request h rfl rfl ?_
  rw [cycleCommand_of_command hrst hvalid,
    cycleCommand_of_command (p := { p with cmdData := d }) hrst hvalid,
    decodeCommand_ignores_data hop]

/-- What a reset or idle cycle asks for does not depend on the command ports. -/
theorem cycleCommand_ignores_command (h : p.rst = true ∨ p.cmdValid = false) (op : BitVec 3)
    (d : Data) : cycleCommand W { p with cmdOp := op, cmdData := d } = cycleCommand W p := by
  simp only [cycleCommand]
  split_ifs with hrst hvalid
  · rfl
  · exact absurd hvalid (by simpa [hrst] using h)
  · rfl

/-- A reset or idle cycle completes from every state (R130). -/
theorem step_completes_of_no_command
    (h : (cycleInputs s).rst = true ∨ (cycleInputs s).cmdValid = false) :
    ∃ t, step s = .next t := by
  obtain ⟨-, hs⟩ | ⟨-, -, hs⟩ | ⟨hrst, hvalid, -⟩ := step_cases s
  · exact ⟨_, hs⟩
  · exact ⟨_, hs⟩
  · simp [hrst, hvalid] at h

/-- Settles O14: such a cycle completes, and asks for the same with other command ports. -/
theorem idleAndResetIgnoreTheCommandPorts : Obligations.IdleAndResetIgnoreTheCommandPorts := by
  intro s p rest op d h
  obtain ⟨t, ht⟩ := step_completes_of_no_command (s := { s with stimulus := p :: rest }) h
  exact ⟨t, ht, step_eq_of_same_request ht rfl rfl (cycleCommand_ignores_command h op d)⟩

/-- Settles O15: what is asked of sync_fifo does not mention the swap operands. -/
theorem swapOperandsDoNotReachTheFifo : Obligations.SwapOperandsDoNotReachTheFifo := by
  intro s t p rest a b h
  obtain ⟨hempty, hfull⟩ := step_flagPorts h
  have hstep := step_congr h
    (s' := { s with stimulus := { p with sw16In := a, sw32In := b } :: rest })
    rfl ⟨rfl, rfl, rfl, rfl⟩ rfl
  exact ⟨_, hstep, ⟨rfl, rfl, rfl, rfl⟩, rfl, hempty.symm, hfull.symm⟩

/-- Settles O16: the ports as the cycle set them up, which its sync_fifo half leaves alone. -/
theorem swapOutputsDependOnTheirOperandAlone : Obligations.SwapOutputsDependOnTheirOperandAlone := by
  intro s t h
  have hsur := step_surround h
  exact ⟨hsur.sw16, hsur.sw32, congrArg Inputs.sw16In hsur.pins, congrArg Inputs.sw32In hsur.pins⟩

/-! ### The decoded command and both swaps -/

/-- Settles O10: the decoder reads back the opcode and the wires of the datum. -/
theorem stepRunsTheDecodedCommand : Obligations.StepRunsTheDecodedCommand := by
  intro s i hrst hvalid hdec
  rw [decode_commandWord, Except.ok.injEq] at hdec
  refine ⟨cyclePorts s, ?_, fifoKept_cyclePorts s, rfl, rfl, rfl, rfl⟩
  rw [step_of_command hrst hvalid, hdec]

/-- Settles O11: the two swaps set up the ports of the cycle. -/
theorem stepEvaluatesBothSwapPorts : Obligations.StepEvaluatesBothSwapPorts :=
  fun s => ⟨driveSwap16 (beginCycle s) (cycleInputs s).sw16In, cyclePorts s, exec_swap16 ..,
    exec_swap32 .., step_eq s, fifoKept_cyclePorts s⟩

/-- Settles O18: the two cycles are an `ADD` to an empty buffer and a `GET` from a buffer of one
element. -/
theorem addIsSeenByGetInTheNextCycle : Obligations.AddIsSeenByGetInTheNextCycle := by
  intro s p q rest h hempty hstim hp_rst hp_valid hp_op hq_rst hq_valid hq_op
  have hp : cycleInputs s = p := by rw [cycleInputs, hstim]
  have hports : RegistersInv (cyclePorts s) :=
    h.registersInv.of_fifoKept rfl (fifoKept_cyclePorts s)
  obtain ⟨t, hadd, hcontents, hrsp⟩ := exec_add_of_empty hports hempty (dataLow s.cfg.width p.cmdData)
  have hstep : step s = .next t := by
    rw [step_of_command (hp ▸ hp_rst) (hp ▸ hp_valid), hp, hp_op]
    exact hadd
  have hq : cycleInputs t = q := by
    rw [cycleInputs, (step_surround hstep).stimulus, cyclePorts_stimulus, hstim]
    rfl
  have hone : contents (cyclePorts t) = [dataLow s.cfg.width p.cmdData] := by
    rw [contents_congr (cyclePorts_cfg t) (fifoKept_cyclePorts t), hcontents, cyclePorts_cfg,
      dataLow_dataLow]
  have hports' : RegistersInv (cyclePorts t) :=
    (h.registersInv.step hstep).of_fifoKept rfl (fifoKept_cyclePorts t)
  obtain ⟨u, hget, hcount, hrsp'⟩ := exec_get_of_singleton hports' hone
  have hstep' : step t = .next u := by
    rw [step_of_command (hq ▸ hq_rst) (hq ▸ hq_valid), hq, hq_op]
    exact hget
  have hheld : t.count ≠ 0 := by
    rw [← contents_length, hcontents, List.length_singleton]
    exact one_ne_zero
  exact ⟨t, u, hstep, hrsp, hstep', hrsp',
    (step_flagPorts hstep').1.trans (emptyFlag_eq_false.mpr hheld), hcount⟩

end Sys2Proof.Machine
end

section
/-! R46, R61, R68, R70: what the decoder accepts, what the parser of listings lets through, and the byte
order of the swaps. -/

namespace Sys2Proof

variable {W : SlotWidth} {op : BitVec 3} {d : Data}

/-- The decoder makes no operand larger than the datum on the port. -/
theorem decodeCommand_wellFormed (op : BitVec 3) (h : d.toNat < 2 ^ W.bits) :
    (decodeCommand op d).wellFormed W = true := by
  rcases opcode_cases op with hop | hop | hop | hop | hop | hop | hop | hop <;> subst hop
  · rfl
  · exact decide_eq_true h
  all_goals rfl

/-- The data field of a word has the `W` bits of its wires. -/
theorem dataField_lt (W : SlotWidth) (w : BitVec 35) : (dataField W w).toNat < 2 ^ W.bits := by
  rw [dataField_toNat]
  exact Nat.mod_lt _ (Nat.two_pow_pos _)

/-- Settles O49: the decoder's one test is that the word fits. -/
theorem decoderRejectsOnlyWordsTooWide : Obligations.DecoderRejectsOnlyWordsTooWide := by
  intro W w
  refine ⟨fun hfits => ⟨_, decode_command_eq_ok_iff.mpr ⟨hfits, rfl⟩, ?_, ?_⟩, fun hwide => ?_⟩
  · exact decodeCommand_wellFormed _ (dataField_lt W w)
  · exact decodeCommand_isCommand ..
  · exact if_neg hwide.not_gt

/-- Settles O50, word by word. -/
theorem wordsOfTheSpecDecodeAsWritten : Obligations.WordsOfTheSpecDecodeAsWritten :=
  ⟨rfl, rfl, rfl, rfl, rfl, rfl, rfl, rfl, rfl, rfl⟩

end Sys2Proof

namespace Sys2Proof.Machine

variable {W : SlotWidth} {i : Instr} {w text : List Char} {n : Nat}

/-- The lines of one word have no operand that could be out of range. -/
theorem wellFormed_of_parsePlain (W : SlotWidth) (h : parsePlain w = some (.instr i)) :
    i.wellFormed W = true := by
  unfold parsePlain at h
  split_ifs at h <;> cases h <;> rfl

/-- A line with a number is parsed only where the number is in the range of the operand (R68). -/
theorem wellFormed_of_parseOperand (h : parseOperand W w n = some (.instr i)) :
    i.wellFormed W = true := by
  unfold parseOperand at h
  split_ifs at h with hadd hrange <;> cases h
  · refine decide_eq_true (lt_of_le_of_lt ?_ hrange)
    exact (BitVec.toNat_ofNat n 32).trans_le (Nat.mod_le ..)
  · rfl
  · rfl

/-- What the parser answers can be presented (R68). -/
theorem wellFormed_of_parseLine (h : parseLine W text = some (.instr i)) :
    i.wellFormed W = true := by
  unfold parseLine at h
  split at h
  · exact wellFormed_of_parsePlain W h
  · split at h
    · cases h
    · exact wellFormed_of_parseOperand h
  · cases h

/-- Settles O55: the instruction is well formed, and decoding takes back encoding on those. -/
theorem parsedLinesCanBePresented : Obligations.ParsedLinesCanBePresented := by
  intro W text i h
  have hwf := wellFormed_of_parseLine h
  exact ⟨hwf, decode_encode hwf⟩

/-- Settles O47: the last operand of `++` is the least significant byte, so each swap lists the bytes of
its operand in the other order. -/
theorem swapsReverseTheByteOrder : Obligations.SwapsReverseTheByteOrder :=
  ⟨byteOf_swap16, byteOf_swap32⟩

end Sys2Proof.Machine
end

section
/-! R68, R69: the lines of a listing, and the clock cycles they take. -/

namespace Sys2Proof.Machine

variable {s s' t u : State} {W : SlotWidth} {held held' p q : Inputs} {i : Instr} {l : Line}
  {ls : List Line}

/-! ### Each kind of line -/

/-- A sync_fifo command is presented as a command word. -/
theorem encode_of_isCommand (W : SlotWidth) (hi : i.isCommand = true) :
    ∃ w, encode W i = .command w := by
  cases i with
  | swap16 v | swap32 v => cases hi
  | init | add | get | empty | full | clear | rsvd6 | rsvd7 => exact ⟨_, rfl⟩

/-- A well-formed command's word stands on the command port as the decoder reads it. -/
theorem decodeCommand_fields_of_encode {w : BitVec 35} (hwf : i.wellFormed W = true)
    (hw : encode W i = .command w) : decodeCommand (opField W w) (dataField W w) = i := by
  have hdec := decode_encode hwf
  rw [hw, decode_command_eq_ok_iff] at hdec
  exact hdec.2

/-- A line of a well-formed command is a cycle that runs it. -/
theorem runLine_command {w : BitVec 35} (hi : i.isCommand = true)
    (hwf : i.wellFormed s.cfg.width = true) (hw : encode s.cfg.width i = .command w) :
    runLine (.instr i) s =
      exec i (cyclePorts (presentInputs s (presentWord s.cfg.width s.pins (.command w)))) := by
  rw [runLine_of_takesCycle (l := .instr i) hi, lineInputs, hw, runCycle_eq_step, step_of_command rfl rfl,
    cycleInputs_presentInputs, presentWord, presentInputs_cfg, dataLow_dataField,
    decodeCommand_fields_of_encode hwf hw]

/-- A line `NOP` is an idle cycle. -/
theorem runLine_nop (s : State) :
    runLine .nop s = idleCycle (cyclePorts (presentInputs s (idleInputs s.pins))) :=
  step_of_idle rfl rfl

/-- The host's next inputs are no part of the spec's state. -/
theorem fifoKept_presentInputs (s : State) (p : Inputs) : FifoKept s (presentInputs s p) :=
  ⟨rfl, rfl, rfl, rfl⟩

/-- The state in which a line's cycle runs its command has the storage and the registers of the line's
state. -/
theorem fifoKept_cyclePorts_presentInputs (s : State) (p : Inputs) :
    FifoKept s (cyclePorts (presentInputs s p)) :=
  (fifoKept_presentInputs s p).trans (fifoKept_cyclePorts _)

/-- Settles O53, kind of line by kind of line. -/
theorem swapLinesTakeNoClockCycle : Obligations.SwapLinesTakeNoClockCycle := by
  refine ⟨fun s v => ?_, fun s v => ?_, fun i s hi hwf => ?_, fun s => ?_, fun s => ?_⟩
  · exact ⟨_, rfl, exec_swap16 s v, ⟨rfl, rfl, rfl, rfl⟩, rfl, rfl, rfl, rfl⟩
  · exact ⟨_, rfl, exec_swap32 s v, ⟨rfl, rfl, rfl, rfl⟩, rfl, rfl, rfl, rfl⟩
  · obtain ⟨w, hw⟩ := encode_of_isCommand s.cfg.width hi
    refine ⟨w, _, _, hw, rfl, ?_, runLine_command hi hwf hw,
      fifoKept_cyclePorts_presentInputs .., rfl, rfl, rfl⟩
    rw [runLine_of_takesCycle (l := .instr i) hi, lineInputs, hw]
    rfl
  · have hline := runLine_nop s
    exact ⟨_, hline, hline, (fifoKept_cyclePorts_presentInputs ..).trans (fifoKept_respond ..), rfl⟩
  · obtain ⟨t, hstep, hk, hrsp⟩ :=
      step_resets_of_rst (s := presentInputs s (lineInputs s.cfg.width s.pins .reset)) rfl
    have hinit : FifoKept (respond (resetState s) .ok 0) (resetState s) := (fifoKept_respond ..).symm
    exact ⟨t, _, hstep, hstep, rfl, (hinit.trans (fifoKept_presentInputs ..).resetState).trans hk, hrsp⟩

/-! ### States that agree on sync_fifo and on the coming inputs -/

/-- The parameters, the state of R20, the response and the coming inputs agree; the ports may differ. -/
structure SameFifo (s s' : State) : Prop where
  cfg : s'.cfg = s.cfg
  fifo : FifoKept s s'
  response : response s' = response s
  stimulus : s'.stimulus = s.stimulus

theorem SameFifo.refl (s : State) : SameFifo s s := ⟨rfl, ⟨rfl, rfl, rfl, rfl⟩, rfl, rfl⟩

/-- Cycles that ask the same of sync_fifo, from states that agree, end in states that agree. -/
theorem runCycle_sameFifo (h : SameFifo s s')
    (hsame : cycleCommand s.cfg.width q = cycleCommand s.cfg.width p) (hrun : runCycle p s = .next t) :
    ∃ t', runCycle q s' = .next t' ∧ SameFifo t t' := by
  have hk : FifoKept (presentInputs s p) (presentInputs s' q) :=
    ((fifoKept_presentInputs s p).symm.trans h.fifo).trans (fifoKept_presentInputs s' q)
  have hstim : t.stimulus = s.stimulus := (step_surround hrun).stimulus
  exact ⟨_, step_congr hrun h.cfg hk hsame, rfl, ⟨rfl, rfl, rfl, rfl⟩, rfl,
    h.stimulus.trans hstim.symm⟩

/-- What a cycle's line asks of sync_fifo does not depend on the inputs the host held before. -/
theorem cycleCommand_lineInputs (hl : l.takesCycle = true) :
    cycleCommand W (lineInputs W held l) = cycleCommand W (lineInputs W held' l) := by
  cases l with
  | nop => exact (cycleCommand_of_idle rfl rfl).trans (cycleCommand_of_idle rfl rfl).symm
  | reset => exact (cycleCommand_of_rst rfl).trans (cycleCommand_of_rst rfl).symm
  | instr i =>
    obtain ⟨w, hw⟩ := encode_of_isCommand W hl
    rw [lineInputs, lineInputs, hw]
    rfl

/-- A swap line leaves the state agreeing with what it was, and its operand on its port. -/
theorem runLine_of_swap (hl : l.takesCycle = false) (s : State) :
    ∃ t, runLine l s = .next t ∧ SameFifo t s ∧ t.pins = lineInputs s.cfg.width s.pins l := by
  obtain ⟨i, rfl, hi, hline⟩ := runLine_of_not_takesCycle hl s
  rw [hline]
  cases i with
  | swap16 v | swap32 v => exact ⟨_, rfl, ⟨rfl, ⟨rfl, rfl, rfl, rfl⟩, rfl, rfl⟩, rfl⟩
  | init | add | get | empty | full | clear | rsvd6 | rsvd7 => cases hi

/-- A swap line does not reach sync_fifo (R68, R103). -/
theorem sameFifo_of_swap_line (hl : l.takesCycle = false) (hline : runLine l s = .next t) :
    SameFifo t s := by
  obtain ⟨u, hline', hsame, -⟩ := runLine_of_swap hl s
  obtain rfl : t = u := Host.Outcome.next.inj (hline.symm.trans hline')
  exact hsame

theorem SameFifo.trans (h : SameFifo s t) (h' : SameFifo t u) : SameFifo s u :=
  ⟨h'.cfg.trans h.cfg, h.fifo.trans h'.fifo, h'.response.trans h.response,
    h'.stimulus.trans h.stimulus⟩

/-- A line from a state in range completes in range, and leaves its own inputs on the ports. -/
theorem runLine_completes (h : InRange s) (l : Line) :
    ∃ t, runLine l s = .next t ∧ InRange t ∧ t.cfg = s.cfg ∧
      t.pins = lineInputs s.cfg.width s.pins l := by
  cases hl : l.takesCycle with
  | true =>
    have hin : InRange (presentInputs s (lineInputs s.cfg.width s.pins l)) :=
      h.of_fifoKept rfl (fifoKept_presentInputs ..)
    obtain ⟨t, hstep⟩ := step_completes hin
    have hcfg := step_cfg_eq hstep
    exact ⟨t, (runLine_of_takesCycle hl s).trans hstep, hin.step hstep, hcfg,
      (step_surround hstep).pins⟩
  | false =>
    obtain ⟨t, hline, hsame, hpins⟩ := runLine_of_swap hl s
    have hcfg : t.cfg = s.cfg := hsame.cfg.symm
    exact ⟨t, hline, h.of_fifoKept hcfg hsame.fifo.symm, hcfg, hpins⟩

/-! ### Listings -/

/-- A listing is assembled to one record of inputs for each line that takes a cycle. -/
theorem length_assemble (W : SlotWidth) (held : Inputs) (ls : List Line) :
    (assemble W held ls).length = (ls.filter Line.takesCycle).length := by
  induction ls generalizing held with
  | nil => rfl
  | cons l ls ih =>
    rw [assemble]
    cases hl : l.takesCycle <;> simp [hl, ih]

/-- From states that agree, a listing and the stimulus assembled from it run to states that agree: the
swap lines change the ports only, and the other lines are the cycles of the stimulus. -/
theorem runListing_sameFifo_assemble (hr : InRange s) (h : SameFifo s s') :
    ∃ t u, runListing ls s = .next t ∧
      runAll runCycle (assemble s.cfg.width s.pins ls) s' = .next u ∧ SameFifo t u := by
  induction ls generalizing s s' with
  | nil => exact ⟨s, s', rfl, rfl, h⟩
  | cons l ls ih =>
    obtain ⟨t₁, hline, hr₁, hcfg₁, hpins₁⟩ := runLine_completes hr l
    cases hl : l.takesCycle with
    | true =>
      have hcycle := (runLine_of_takesCycle hl s).symm.trans hline
      obtain ⟨u₁, hrun₁, h₁⟩ := runCycle_sameFifo h rfl hcycle
      obtain ⟨t, u, hrest, hrun, htu⟩ := ih hr₁ h₁
      rw [hcfg₁, hpins₁] at hrun
      refine ⟨t, u, runAll_cons_eq_next.mpr ⟨t₁, hline, hrest⟩, ?_, htu⟩
      rw [assemble, if_pos hl]
      exact runAll_cons_eq_next.mpr ⟨u₁, hrun₁, hrun⟩
    | false =>
      obtain ⟨t, u, hrest, hrun, htu⟩ := ih hr₁ ((sameFifo_of_swap_line hl hline).trans h)
      rw [hcfg₁, hpins₁] at hrun
      refine ⟨t, u, runAll_cons_eq_next.mpr ⟨t₁, hline, hrest⟩, ?_, htu⟩
      rw [assemble, hl]
      exact hrun

/-- From states that agree, a listing and the listing without its swap lines run to states that agree. -/
theorem runListing_sameFifo_filter (hr : InRange s) (h : SameFifo s s') :
    ∃ t u, runListing ls s = .next t ∧ runListing (ls.filter Line.takesCycle) s' = .next u ∧
      SameFifo t u := by
  induction ls generalizing s s' with
  | nil => exact ⟨s, s', rfl, rfl, h⟩
  | cons l ls ih =>
    obtain ⟨t₁, hline, hr₁, -, -⟩ := runLine_completes hr l
    cases hl : l.takesCycle with
    | true =>
      have hcycle := (runLine_of_takesCycle hl s).symm.trans hline
      obtain ⟨u₁, hrun₁, h₁⟩ := runCycle_sameFifo h
        (cycleCommand_lineInputs (held := s'.pins) hl) hcycle
      have hline₁ : runLine l s' = .next u₁ := by rw [runLine_of_takesCycle hl, h.cfg, hrun₁]
      obtain ⟨t, u, hrest, hrun, htu⟩ := ih hr₁ h₁
      refine ⟨t, u, runAll_cons_eq_next.mpr ⟨t₁, hline, hrest⟩, ?_, htu⟩
      rw [List.filter_cons_of_pos hl]
      exact runAll_cons_eq_next.mpr ⟨u₁, hline₁, hrun⟩
    | false =>
      obtain ⟨t, u, hrest, hrun, htu⟩ := ih hr₁ ((sameFifo_of_swap_line hl hline).trans h)
      refine ⟨t, u, runAll_cons_eq_next.mpr ⟨t₁, hline, hrest⟩, ?_, htu⟩
      rw [List.filter_cons_of_neg (by simp [hl])]
      exact hrun

/-- Settles O54: both runs agree with the listing's, which is the same one. -/
theorem listingsClockOnlyTheirOtherLines : Obligations.ListingsClockOnlyTheirOtherLines := by
  refine ⟨length_assemble, fun ls s hr => ?_⟩
  obtain ⟨t, u, hlist, hcycles, hu⟩ := runListing_sameFifo_assemble (ls := ls) hr (.refl s)
  obtain ⟨t', v, hlist', hfilter, hv⟩ := runListing_sameFifo_filter (ls := ls) hr (.refl s)
  obtain rfl : t = t' := Host.Outcome.next.inj (hlist.symm.trans hlist')
  exact ⟨t, u, v, hlist, hcycles, hfilter, hu.fifo, hu.response, hu.stimulus, hv.fifo, hv.response,
    hv.stimulus⟩

end Sys2Proof.Machine
end
